-- ==== Sys2Proof/Word.lean ====
section
/-! DEFINITION. The word types of the MinVM CORE (00_scope.md R8, R10): bytes, and the 4-bit fields of an
instruction byte. -/

namespace Sys2Proof

/-- A byte: a register, the pc, the flags, a memory byte or an address (R8: XLEN, PCW, FLAGSW, AW are 8 bits). -/
abbrev Byte := BitVec 8

/-- The opcode or argument field of an instruction byte (R8: OPW, ARGW are 4 bits). -/
abbrev Nibble := BitVec 4

/-- A register mask: bit i selects register r(i+1) (R13). -/
abbrev Mask := Nibble

end Sys2Proof
end

