-- ==== Sys2Proof/Syntax.lean ====
section
/-! DEFINITION. The instructions of the MinVM CORE as syntax: one constructor per row of
spec/opcode_table.json, with the trailing bytes of its static encoding (30_encoding.md R61, R62). -/

namespace Sys2Proof

/-- The four general registers (10_state.md R22). -/
inductive Reg where
  | r1 | r2 | r3 | r4
deriving DecidableEq, Repr, Inhabited

/-- The sixteen mnemonics an opcode value can stand for (30_encoding.md R72). -/
inductive Mnemonic where
  | loadi | inc | dec | loadr | add | sub | mul | div
  | and | or | xor | rotr | jmpneq | jmpeq | stor | itr
deriving DecidableEq, Repr, Inhabited

/-- An instruction with all the bytes it consumes. Masks are 4-bit; a source mask is the RAW byte 1 of
format S, because a bad one is an exception at execution and not an illegal encoding (R67, R75). -/
inductive Instr where
  /-- HALT: LOADI with destination mask 0 (40_load_incdec.md R100). -/
  | halt
  /-- LOADI: destination mask and its immediates, in mask order (R101). -/
  | loadi (d : Mask) (imms : List Byte)
  /-- INC: operand mask (R102). -/
  | inc (m : Mask)
  /-- DEC: operand mask (R103). -/
  | dec (m : Mask)
  /-- LOADR: destination mask, source-mask byte (R104). -/
  | loadr (d : Mask) (src : Byte)
  /-- ADD: destination mask, source-mask byte (41_alu.md R132). -/
  | add (d : Mask) (src : Byte)
  /-- SUB (R133). -/
  | sub (d : Mask) (src : Byte)
  /-- MUL (R134). -/
  | mul (d : Mask) (src : Byte)
  /-- DIV (R135). -/
  | div (d : Mask) (src : Byte)
  /-- AND (R137). -/
  | and (d : Mask) (src : Byte)
  /-- OR (R138). -/
  | or (d : Mask) (src : Byte)
  /-- XOR (R139). -/
  | xor (d : Mask) (src : Byte)
  /-- ROTR: operand mask (R140). -/
  | rotr (m : Mask)
  /-- JMPNEQ: operand mask, absolute target (42_branch.md R171). -/
  | jmpneq (m : Mask) (target : Byte)
  /-- JMPEQ: operand mask, absolute target (R172). -/
  | jmpeq (m : Mask) (target : Byte)
  /-- STOR: source mask, absolute base address (43_store.md R190). -/
  | stor (m : Mask) (base : Byte)
  /-- ITR: interrupt index (44_interrupt.md R200). -/
  | itr (k : Nibble)
deriving DecidableEq, Repr, Inhabited

end Sys2Proof
end

