-- ==== Sys2Proof/Machine/Data.lean ====
section
/-! DEFINITION. The plain data the state is made of and what passes between the CORE and its host
(10_state.md R20, R32; 44_interrupt.md R200 to R202; 60_exceptions.md R237). -/

namespace Sys2Proof.Machine

/-- The four general registers (10_state.md R22). -/
structure RegFile where
  r1 : Byte
  r2 : Byte
  r3 : Byte
  r4 : Byte
deriving DecidableEq, Repr, Inhabited

/-- The 256-byte memory as a list of cells: addresses strictly rising, no cell equal to what an unlisted
address reads as (20_memory.md R40; `Memory.wf` says the form). -/
abbrev Memory := List Host.Cell

/-- A callback a slot can be bound to: the two conventional ones (44_interrupt.md R202), or a host callback
known to the model only by a number (R201). -/
inductive Binding where
  /-- Prints the machine state; changes nothing (R202, index 0 by convention). -/
  | dump
  /-- Emits register 1 as a character; changes nothing (R202, index 1 by convention). -/
  | emit
  /-- Host code; what it answers is `Config.callback` (R201). -/
  | host (id : Nat)
deriving DecidableEq, Repr, Inhabited

/-- The interrupt table: 16 slots, each empty or bound (10_state.md R32). -/
abbrev Itab := Vector (Option Binding) 16

/-- One output event of a callback (44_interrupt.md R202; 92_eei_decisions.md D20, D21). How an event is
written out is `Config.isrOutput`. -/
inductive OutputEvent where
  /-- The state dump: what the callback was given. -/
  | dump (flags pc : Byte) (regs : RegFile) (mem : Memory)
  /-- One byte, emitted as a character. -/
  | emit (b : Byte)
  /-- The output of a host-defined callback. -/
  | host (payload : List Byte)
deriving DecidableEq, Repr, Inhabited

/-- The whole machine state as a callback is given it and gives it back (60_exceptions.md R237, ITR request
and ITR response; 44_interrupt.md R201). Memory is all of its 256 bytes. -/
structure HostView where
  flags : Byte
  pc : Byte
  regs : RegFile
  mem : Vector Byte 256
  itab : Itab
deriving DecidableEq, Repr, Inhabited

/-- What comes back from a host callback. -/
inductive CallbackAnswer where
  /-- It returned, leaving this state and having produced this output (44_interrupt.md R201). -/
  | returned (after : HostView) (out : List OutputEvent)
  /-- It ran the execution loop of its own instance, which is undefined (44_interrupt.md R204). -/
  | reentered
deriving DecidableEq, Repr, Inhabited

end Sys2Proof.Machine
end

