-- ==== Sys2Proof/Config.lean ====
section
/-! DEFINITION. The parameters the spec leaves open (00_scope.md R9): the opcode map, the callbacks, what
ITR to an empty slot does, and how callback output is written out. -/

namespace Sys2Proof

/-- An `opcodeMap`: a bijection between opcode values and mnemonics that puts LOADI at 0
(00_scope.md R9; 92_eei_decisions.md D1; log 1). The default one is `tableOpcodeMap` in Decode.lean. -/
structure OpcodeMap where
  ofOpcode : Nibble → Mnemonic
  toOpcode : Mnemonic → Nibble
  of_to : ∀ n, ofOpcode (toOpcode n) = n
  to_of : ∀ c, toOpcode (ofOpcode c) = c
  loadi_zero : ofOpcode 0 = .loadi

namespace Config

/-- `unboundItr`: what ITR to an empty slot does (44_interrupt.md R203; log 6). The host supplies it with the interrupt
table; the machine's state carries it, so that every step, run and statement is over every value of it. -/
inductive UnboundItr where
  /-- The model gives the step no meaning. -/
  | refuse
  /-- The host defines a behaviour: it runs this host callback. -/
  | callback (id : Nat)
deriving DecidableEq, Repr, Inhabited

/-- The spec's default: refusal (44_interrupt.md R203; 92_eei_decisions.md D8). -/
def unboundItr : UnboundItr := .refuse

/-- FREE VALUE. What host callback `id`, invoked through slot `k` as the `draw`-th host callback of the run,
answers on a machine state (44_interrupt.md R201: "The relation is left open"; log 4). Every answer the
relation admits is the value for some draw, so nothing here says what a callback does. -/
opaque callback (id : Nat) (k : Nibble) (draw : Nat) (before : Machine.HostView) : Machine.CallbackAnswer

/-- `isrOutput`: the text an output event is written out as, format and character encoding included
(44_interrupt.md R202; 92_eei_decisions.md D20; log 10). -/
opaque isrOutput : Machine.OutputEvent → String

end Config

end Sys2Proof
end

