-- ==== Sys2Proof/Machine/Mask.lean ====
section
/-! DEFINITION. The Register Mask Resolver (30_encoding.md R65, R66) and the two halves of a byte (R60). -/

namespace Sys2Proof

/-- The mask bit that selects a register: bit i selects r(i+1) (10_state.md R22). -/
def Reg.position : Reg → Nat
  | .r1 => 0
  | .r2 => 1
  | .r3 => 2
  | .r4 => 3

/-- `select(m)`: the selected registers, in ascending order (30_encoding.md R65). -/
def select (m : Mask) : List Reg :=
  [Reg.r1, Reg.r2, Reg.r3, Reg.r4].filter fun r => m.getLsbD r.position

/-- `popcount(m)`: the number of 1 bits of a mask (30_encoding.md R66). -/
def popcount (m : Mask) : Nat :=
  (m.getLsbD 0).toNat + (m.getLsbD 1).toNat + (m.getLsbD 2).toNat + (m.getLsbD 3).toNat

/-- `b[7:4]`. -/
def highNibble (b : Byte) : Nibble := b.extractLsb' 4 4

/-- `b[3:0]`. -/
def lowNibble (b : Byte) : Nibble := b.extractLsb' 0 4

end Sys2Proof
end

