-- ==== Sys2Proof/WellFormed.lean ====
section
/-! DEFINITION. Which terms of Instr stand for an encoding. Only LOADI can be ill-formed: its mask is not
empty (0x00 is HALT) and it carries one immediate per selected register (30_encoding.md R62, R63). -/

namespace Sys2Proof

/-- The term is the reading of some encoding. -/
def Instr.wellFormed : Instr → Bool
  | .halt => true
  | .loadi d imms => d != 0 && imms.length == popcount d
  | .inc _ => true
  | .dec _ => true
  | .loadr _ _ => true
  | .add _ _ => true
  | .sub _ _ => true
  | .mul _ _ => true
  | .div _ _ => true
  | .and _ _ => true
  | .or _ _ => true
  | .xor _ _ => true
  | .rotr _ => true
  | .jmpneq _ _ => true
  | .jmpeq _ _ => true
  | .stor _ _ => true
  | .itr _ => true

end Sys2Proof
end

