-- ==== Sys2Proof/Decode.lean ====
section
/-! DEFINITION. The Instruction Decoder and an encoder, both written from the formats of 30_encoding.md R62
and the opcode table (R72), for any opcode map (00_scope.md R9) and for the default one. -/

namespace Sys2Proof

/-! ## The default opcode map -/

/-- The mnemonics in the order of the opcode table; the position is the opcode value (30_encoding.md R72). -/
def opcodeTable : List Mnemonic :=
  [.loadi, .inc, .dec, .loadr, .add, .sub, .mul, .div,
   .and, .or, .xor, .rotr, .jmpneq, .jmpeq, .stor, .itr]

/-- The opcode value of a mnemonic in the default map (30_encoding.md R72). -/
def tableOpcode : Mnemonic → Nibble
  | .loadi => 0x0
  | .inc => 0x1
  | .dec => 0x2
  | .loadr => 0x3
  | .add => 0x4
  | .sub => 0x5
  | .mul => 0x6
  | .div => 0x7
  | .and => 0x8
  | .or => 0x9
  | .xor => 0xA
  | .rotr => 0xB
  | .jmpneq => 0xC
  | .jmpeq => 0xD
  | .stor => 0xE
  | .itr => 0xF

/-- The default `opcodeMap` (30_encoding.md R72; 92_eei_decisions.md D1; DESIGN CHOICE of the spec, log 1). -/
def tableOpcodeMap : OpcodeMap where
  ofOpcode c := opcodeTable.getD c.toNat .itr
  toOpcode := tableOpcode
  of_to n := by cases n <;> rfl
  to_of := by decide
  loadi_zero := rfl

/-! ## Decoding -/

/-- How many trailing bytes follow an instruction byte: found from the byte alone (30_encoding.md R63, R64). -/
def trailingCount (om : OpcodeMap) (b : Byte) : Nat :=
  match om.ofOpcode (highNibble b) with
  | .loadi => popcount (lowNibble b)
  | .inc | .dec | .rotr | .itr => 0
  | .loadr | .add | .sub | .mul | .div | .and | .or | .xor => 1
  | .jmpneq | .jmpeq | .stor => 1

/-- The instruction an instruction byte begins, where `t k` is the k-th trailing byte, counting from 0. Every
byte begins one (30_encoding.md R74). -/
def decodeInstr (om : OpcodeMap) (b : Byte) (t : Nat → Byte) : Instr :=
  let arg := lowNibble b
  match om.ofOpcode (highNibble b) with
  | .loadi => if arg = 0 then .halt else .loadi arg ((List.range (popcount arg)).map t)
  | .inc => .inc arg
  | .dec => .dec arg
  | .loadr => .loadr arg (t 0)
  | .add => .add arg (t 0)
  | .sub => .sub arg (t 0)
  | .mul => .mul arg (t 0)
  | .div => .div arg (t 0)
  | .and => .and arg (t 0)
  | .or => .or arg (t 0)
  | .xor => .xor arg (t 0)
  | .rotr => .rotr arg
  | .jmpneq => .jmpneq arg (t 0)
  | .jmpeq => .jmpeq arg (t 0)
  | .stor => .stor arg (t 0)
  | .itr => .itr arg

/-- Why a list of bytes does not begin with a whole instruction. No byte VALUE is ever rejected
(30_encoding.md R74). -/
inductive DecodeError where
  /-- There is no instruction byte. -/
  | noByte
  /-- The list ends before the trailing bytes do. -/
  | truncated
deriving DecidableEq, Repr

/-- The instruction a list of bytes begins with, and the bytes after it. -/
def decodeWith (om : OpcodeMap) : List Byte → Except DecodeError (Instr × List Byte)
  | [] => .error .noByte
  | b :: rest =>
    if rest.length < trailingCount om b then .error .truncated
    else .ok (decodeInstr om b fun k => rest.getD k 0, rest.drop (trailingCount om b))

/-- Decoding under the default map. -/
def decode (bs : List Byte) : Except DecodeError (Instr × List Byte) := decodeWith tableOpcodeMap bs

/-! ## Encoding -/

/-- An instruction byte: opcode in bits 7:4, argument in bits 3:0 (30_encoding.md R60). -/
def instrByte (om : OpcodeMap) (n : Mnemonic) (arg : Nibble) : Byte := om.toOpcode n ++ arg

/-- The bytes of an instruction, in address order (30_encoding.md R62). -/
def encodeWith (om : OpcodeMap) : Instr → List Byte
  | .halt => [instrByte om .loadi 0]
  | .loadi d imms => instrByte om .loadi d :: imms
  | .inc m => [instrByte om .inc m]
  | .dec m => [instrByte om .dec m]
  | .loadr d src => [instrByte om .loadr d, src]
  | .add d src => [instrByte om .add d, src]
  | .sub d src => [instrByte om .sub d, src]
  | .mul d src => [instrByte om .mul d, src]
  | .div d src => [instrByte om .div d, src]
  | .and d src => [instrByte om .and d, src]
  | .or d src => [instrByte om .or d, src]
  | .xor d src => [instrByte om .xor d, src]
  | .rotr m => [instrByte om .rotr m]
  | .jmpneq m target => [instrByte om .jmpneq m, target]
  | .jmpeq m target => [instrByte om .jmpeq m, target]
  | .stor m base => [instrByte om .stor m, base]
  | .itr k => [instrByte om .itr k]

/-- Encoding under the default map. -/
def encode (i : Instr) : List Byte := encodeWith tableOpcodeMap i

/-- The length of an instruction in bytes (30_encoding.md R63). -/
def Instr.length : Instr → Nat
  | .halt => 1
  | .loadi d _ => 1 + popcount d
  | .inc _ => 1
  | .dec _ => 1
  | .loadr _ _ => 2
  | .add _ _ => 2
  | .sub _ _ => 2
  | .mul _ _ => 2
  | .div _ _ => 2
  | .and _ _ => 2
  | .or _ _ => 2
  | .xor _ _ => 2
  | .rotr _ => 1
  | .jmpneq _ _ => 2
  | .jmpeq _ _ => 2
  | .stor _ _ => 2
  | .itr _ => 1

/-! ## Words of the opcode table -/

/-- The longest instruction, in bytes (30_encoding.md R63: LOADI with four immediates). -/
def maxLength : Nat := 5

/-- An instruction given as a number, bit 0 the least significant bit of its first byte, as the bytes from the
lowest address up; every bit above `nbits` is 0. -/
def wordBytes (nbits w : Nat) : List Byte :=
  (List.range maxLength).map fun k => BitVec.ofNat 8 ((w % 2 ^ nbits) / 256 ^ k)

/-- The instruction the decoder reads from such a word. -/
def decodeTableWord (nbits w : Nat) : Option Instr :=
  match decode (wordBytes nbits w) with
  | .ok (i, _) => some i
  | .error _ => none

end Sys2Proof
end

