-- ==== Sys2Proof/Machine/Flags.lean ====
section
/-! DEFINITION. The flags byte (10_state.md R28 to R31): its bits, and what a halt and an exception make of it.
No instruction computes a condition code (R31). -/

namespace Sys2Proof.Machine

/-- Bit 0: halted (10_state.md R28). -/
def haltFlag (f : Byte) : Bool := f.getLsbD 0

/-- Bit 1: exception occurred (10_state.md R28). -/
def exceptionFlag (f : Byte) : Bool := f.getLsbD 1

/-- Bits 7:2: reserved (10_state.md R29). -/
def reservedFlags (f : Byte) : BitVec 6 := f.extractLsb' 2 6

/-- The exception bit, if set, is accompanied by the halt bit (10_state.md R28). -/
def flagsLegal (f : Byte) : Bool := !exceptionFlag f || haltFlag f

/-- `flags | 0x01` (60_exceptions.md R227). -/
def haltedFlags (f : Byte) : Byte := f ||| 0x01

/-- `flags | 0x03` (60_exceptions.md R220). -/
def exceptionFlags (f : Byte) : Byte := f ||| 0x03

end Sys2Proof.Machine
end

