-- ==== Sys2Proof/Machine/State.lean ====
section
/-! DEFINITION. The state of the machine (10_state.md R20), why a step can stop, and the state after reset. -/

namespace Sys2Proof.Machine

/-- The machine state (10_state.md R20), the output trace (30_encoding.md R83), the host's setting for empty slots
(00_scope.md R9), and one counter of the model's own. -/
structure State where
  /-- Bit 0 halted, bit 1 exception, bits 7:2 reserved (10_state.md R28, R29). -/
  flags : Byte
  /-- The program counter (10_state.md R25, R26). -/
  pc : Byte
  /-- The general registers (10_state.md R22). -/
  regs : RegFile
  /-- The memory, code and data (20_memory.md R40). -/
  mem : Memory
  /-- The interrupt table (10_state.md R32). -/
  itab : Itab
  /-- What ITR to an empty slot does: a parameter the host supplies with the table, which nothing in a run reads but such
  an ITR and nothing writes (00_scope.md R9; 44_interrupt.md R203; log 6). -/
  unboundItr : Config.UnboundItr
  /-- What the callbacks have put out so far, oldest first (30_encoding.md R83; 92_eei_decisions.md D21). -/
  output : List OutputEvent
  /-- The MODEL's own: how many host callbacks have answered so far; it picks the free answer of the next one
  (log 4). -/
  draws : Nat
deriving DecidableEq, Repr, Inhabited

/-- RUNNING or HALTED: no storage of its own (10_state.md R21). -/
inductive RunState where
  | running
  | halted
deriving DecidableEq, Repr

/-- The exception causes: names of the spec, recorded in no state (60_exceptions.md R222, R223). -/
inductive ExcCause where
  | badSourceMask
  | popMismatch
  | divByZero
deriving DecidableEq, Repr

/-- The reasons a step stops with a fault. -/
inductive Fault where
  /-- Raised by `step` alone, on a state whose halt bit is set: "No instruction executes once HALTED"
  (30_encoding.md R82). Safe: the machine does not go on either. -/
  | halted
deriving DecidableEq, Repr

/-- The reasons the model gives a step no meaning. -/
inductive Refusal where
  /-- Raised by `exec` for an instruction that has no meaning yet; no arm does so. Safe. -/
  | notModelled (mnemonic : String)
  /-- Raised by ITR on an empty slot when the host defines no behaviour for one (44_interrupt.md R203, reason
  UnboundInterrupt). Safe: the spec gives the step no meaning. -/
  | unboundInterrupt
  /-- Raised by ITR when a callback leaves flags[1:0] = 0b10 (44_interrupt.md R201). Safe: a breach of the host's
  contract. -/
  | exceptionWithoutHalt
  /-- Raised by ITR when a callback runs the loop of its own instance (44_interrupt.md R204, reason
  ReentrantRun). Safe: undefined. -/
  | reentrantRun
deriving DecidableEq, Repr

/-- The interrupt table with the conventional bindings in slots 0 and 1 (44_interrupt.md R202) and every other
slot empty, as the programs of 95_test_vectors.md section 3 have it. -/
def conventionalItab : Itab :=
  #v[some .dump, some .emit, none, none, none, none, none, none,
     none, none, none, none, none, none, none, none]

/-- The machine after construction, with no image loaded (10_state.md R34; 70_reset_and_hazards.md R250). The
table is the host's to supply: DESIGN CHOICE `conventionalItab` (log 2). An empty slot is refused, the default of
92_eei_decisions.md D8: DESIGN CHOICE (log 6). The empty output and the counter at 0
are the model's (log 3). -/
def State.reset : State where
  flags := 0x00
  pc := 0x00
  regs := ⟨0x00, 0x00, 0x00, 0x00⟩
  mem := []
  itab := conventionalItab
  unboundItr := Config.unboundItr
  output := []
  draws := 0

end Sys2Proof.Machine
end

