-- ==== Sys2Proof/Machine/Ops.lean ====
section
/-! DEFINITION. The named operations over registers, memory, pc and flags that every meaning is made of
(00_scope.md R11), taking an exception among them. -/

namespace Sys2Proof.Machine

/-! ## Registers -/

/-- `x[i]` (00_scope.md R11). -/
def RegFile.get (f : RegFile) : Reg → Byte
  | .r1 => f.r1
  | .r2 => f.r2
  | .r3 => f.r3
  | .r4 => f.r4

/-- `x[i] <- v` (00_scope.md R11). -/
def RegFile.set (f : RegFile) (r : Reg) (v : Byte) : RegFile :=
  match r with
  | .r1 => { f with r1 := v }
  | .r2 => { f with r2 := v }
  | .r3 => { f with r3 := v }
  | .r4 => { f with r4 := v }

/-- Writes the k-th value into the k-th register of a list, in list order. -/
def RegFile.setAll : RegFile → List Reg → List Byte → RegFile
  | f, r :: rs, v :: vs => (f.set r v).setAll rs vs
  | f, [], _ => f
  | f, _ :: _, [] => f

/-! ## Memory -/

/-- What an address with no cell reads as: the loader zero-fills (10_state.md R34; log 21). -/
def Memory.unlisted : Byte := 0x00

/-- `mem[a]` (20_memory.md R44). -/
def Memory.read : Memory → Nat → Byte
  | [], _ => Memory.unlisted
  | (k, v) :: rest, a => if k = a then v else Memory.read rest a

/-- `mem[a] <- v`, keeping the canonical form (20_memory.md R44). -/
def Memory.write (m : Memory) (a : Nat) (v : Byte) : Memory :=
  match m with
  | [] => if v = Memory.unlisted then [] else [(a, v)]
  | (k, w) :: rest =>
    if k < a then (k, w) :: Memory.write rest a v
    else
      let tail := if k = a then rest else (k, w) :: rest
      if v = Memory.unlisted then tail else (a, v) :: tail

/-- The canonical form: addresses strictly rising and below 256, and no cell that reads as an unlisted one. -/
abbrev Memory.wf (m : Memory) : Prop :=
  m.Pairwise (fun c c' => c.1 < c'.1) ∧ ∀ c ∈ m, c.1 < 256 ∧ c.2 ≠ Memory.unlisted

/-- All 256 bytes, as a callback is given them (60_exceptions.md R237). -/
def Memory.toBytes (m : Memory) : Vector Byte 256 := Vector.ofFn fun a => m.read a.val

/-- The memory that holds these 256 bytes. -/
def Memory.ofBytes (bs : Vector Byte 256) : Memory :=
  (List.finRange 256).filterMap fun a =>
    if bs[a] = Memory.unlisted then none else some (a.val, bs[a])

/-- `MemRead(a, 1)` (20_memory.md R44). -/
def memRead (s : State) (a : Byte) : Byte := s.mem.read a.toNat

/-- `MemWrite(a, 1, v)` (20_memory.md R44). -/
def memWrite (s : State) (a v : Byte) : State := { s with mem := s.mem.write a.toNat v }

/-- Writes bytes at `a`, `a + 1`, ... modulo 256, in list order (20_memory.md R43). The wrap is the spec's
decision D4 (log 11). -/
def storeBytes (s : State) : Byte → List Byte → State
  | _, [] => s
  | a, v :: vs => storeBytes (memWrite s a v) (a + 1) vs

/-! ## The instruction stream -/

/-- `fetch8()`: the byte at pc, and the state with pc advanced modulo 256 (30_encoding.md R71). -/
def fetch8 (s : State) : Byte × State := (memRead s s.pc, { s with pc := s.pc + 1 })

/-- `n` times `fetch8()`: the bytes in address order, and the state after them. -/
def fetchN : Nat → State → List Byte × State
  | 0, s => ([], s)
  | n + 1, s =>
    let (b, s') := fetch8 s
    let (bs, s'') := fetchN n s'
    (b :: bs, s'')

/-- The state after an instruction of `n` bytes has been consumed: pc = (ia + n) mod 256 (10_state.md R26). -/
def consume (n : Nat) (s : State) : State := { s with pc := s.pc + BitVec.ofNat 8 n }

/-- `pc <- target` (42_branch.md R170). -/
def jumpTo (target : Byte) (s : State) : State := { s with pc := target }

/-! ## Halting and taking an exception -/

/-- RUNNING or HALTED, from flags bit 0 (10_state.md R21). -/
def State.runState (s : State) : RunState :=
  match haltFlag s.flags with
  | true => .halted
  | false => .running

/-- `halt()` (60_exceptions.md R227). -/
def haltMachine (s : State) : State := { s with flags := haltedFlags s.flags }

/-- TAKING AN EXCEPTION: `raise Exception(cause)` (60_exceptions.md R220). It sets flags bits 0 and 1; no pc and no
status is saved, no mode changes and control goes nowhere (R223, R225). The cause is recorded nowhere. There is
no return from an exception (R226), so there is no operation beside it. -/
def raiseException (_cause : ExcCause) (s : State) : State := { s with flags := exceptionFlags s.flags }

/-! ## Output -/

/-- Appends events to the output trace (44_interrupt.md R200). -/
def emitOutput (out : List OutputEvent) (s : State) : State := { s with output := s.output ++ out }

end Sys2Proof.Machine
end

