-- ==== Sys2Proof/Machine/Operands.lean ====
section
/-! DEFINITION. Operand decoding: the Composite Integer Codec (30_encoding.md R68, R69) and the source-mask
checks with the operands they give (R67; 41_alu.md R130; 40_load_incdec.md R104). -/

namespace Sys2Proof.Machine

/-- `pack(L)`: the registers of a list as one number, the first the least-significant byte (30_encoding.md R68).
The empty list packs to 0 (95_test_vectors.md W1). -/
def pack (f : RegFile) : List Reg → Nat
  | [] => 0
  | r :: rs => (f.get r).toNat + 256 * pack f rs

/-- Writes the bytes of `w`, least-significant first, into the registers of a list (30_encoding.md R69). -/
def setDigits (f : RegFile) : List Reg → Nat → RegFile
  | [], _ => f
  | r :: rs, w => setDigits (f.set r (BitVec.ofNat 8 w)) rs (w / 256)

/-- `unpack(v, L)`: an exact, possibly negative integer, narrowed modulo 2^(8N), into the registers of a list
(30_encoding.md R69). With N = 0 nothing is written (92_eei_decisions.md D5, log 12). -/
def unpack (v : Int) (L : List Reg) (f : RegFile) : RegFile :=
  setDigits f L (v % ((2 ^ (8 * L.length) : Nat) : Int)).toNat

/-- `binsrc()` after its byte has been fetched: the two operand bytes, or the exception of a source byte that does
not select exactly two registers (41_alu.md R130; check order 60_exceptions.md R224). -/
def binarySource (src : Byte) (f : RegFile) : Except ExcCause (Byte × Byte) :=
  if highNibble src ≠ 0 then .error .badSourceMask
  else
    match select (lowNibble src) with
    | [p, q] => .ok (f.get p, f.get q)
    | _ => .error .badSourceMask

/-- LOADR's source registers, or the exception of its source byte (40_load_incdec.md R104; the high-nibble check
follows 90_conflicts.md C3, log 16). -/
def loadrSource (d : Mask) (src : Byte) : Except ExcCause (List Reg) :=
  if highNibble src ≠ 0 then .error .badSourceMask
  else if popcount (lowNibble src) ≠ popcount d then .error .popMismatch
  else .ok (select (lowNibble src))

/-- The values of the registers of a list, in list order, all read at once. -/
def values (f : RegFile) (L : List Reg) : List Byte := L.map f.get

end Sys2Proof.Machine
end

