-- ==== Sys2Proof/Machine/Alu.lean ====
section
/-! DEFINITION. ADD, SUB, MUL, DIV, AND, OR, XOR, ROTR (41_alu.md R130 to R141). -/

namespace Sys2Proof.Machine

/-- `exec_ARITH(op, d)`: check, read both operands, compute exactly, unpack over the destination (R131). With d = 0
the checks still apply and nothing is written (92_eei_decisions.md D5, log 12). -/
def execArith (op : Byte → Byte → Except ExcCause Int) (d : Mask) (src : Byte) (s : State) :
    Host.Outcome State Fault Refusal :=
  match binarySource src s.regs with
  | .error c => .next (raiseException c (consume 2 s))
  | .ok (a, b) =>
    match op a b with
    | .error c => .next (raiseException c (consume 2 s))
    | .ok v => .next { consume 2 s with regs := unpack v (select d) s.regs }

/-- a + b, exactly (R132). -/
def addExact (a b : Byte) : Except ExcCause Int := .ok ((a.toNat : Int) + (b.toNat : Int))

/-- a - b, exactly (R133). -/
def subExact (a b : Byte) : Except ExcCause Int := .ok ((a.toNat : Int) - (b.toNat : Int))

/-- a × b, exactly (R134). -/
def mulExact (a b : Byte) : Except ExcCause Int := .ok ((a.toNat : Int) * (b.toNat : Int))

/-- The unsigned quotient, or DivByZero (R135; rounding 92_eei_decisions.md D24, log 23). -/
def divExact (a b : Byte) : Except ExcCause Int :=
  if b = 0 then .error .divByZero else .ok ((a.toNat / b.toNat : Nat) : Int)

/-- ADD (R132). -/
def execAdd (d : Mask) (src : Byte) (s : State) : Host.Outcome State Fault Refusal := execArith addExact d src s

/-- SUB (R133). -/
def execSub (d : Mask) (src : Byte) (s : State) : Host.Outcome State Fault Refusal := execArith subExact d src s

/-- MUL (R134). -/
def execMul (d : Mask) (src : Byte) (s : State) : Host.Outcome State Fault Refusal := execArith mulExact d src s

/-- DIV (R135). -/
def execDiv (d : Mask) (src : Byte) (s : State) : Host.Outcome State Fault Refusal := execArith divExact d src s

/-- `exec_BITWISE(op, d)`: the one result byte goes to every destination register (R136). -/
def execBitwise (op : Byte → Byte → Byte) (d : Mask) (src : Byte) (s : State) :
    Host.Outcome State Fault Refusal :=
  match binarySource src s.regs with
  | .error c => .next (raiseException c (consume 2 s))
  | .ok (a, b) =>
    .next { consume 2 s with regs := s.regs.setAll (select d) ((select d).map fun _ => op a b) }

/-- AND (R137). -/
def execAnd (d : Mask) (src : Byte) (s : State) : Host.Outcome State Fault Refusal :=
  execBitwise (fun a b => a &&& b) d src s

/-- OR (R138). -/
def execOr (d : Mask) (src : Byte) (s : State) : Host.Outcome State Fault Refusal :=
  execBitwise (fun a b => a ||| b) d src s

/-- XOR (R139). -/
def execXor (d : Mask) (src : Byte) (s : State) : Host.Outcome State Fault Refusal :=
  execBitwise (fun a b => a ^^^ b) d src s

/-- A list moved right by one place: the last entry first, every other one after it in order. -/
def rotateRight {α : Type} (L : List α) : List α := L.getLast?.toList ++ L.dropLast

/-- ROTR (R140): whole byte values move along the mask; fewer than two registers is a no-op. -/
def execRotr (m : Mask) (s : State) : Host.Outcome State Fault Refusal :=
  let L := select m
  let regs := if L.length < 2 then s.regs else s.regs.setAll L (rotateRight (values s.regs L))
  .next { consume 1 s with regs := regs }

end Sys2Proof.Machine
end

