-- ==== Sys2Proof/Machine/Branch.lean ====
section
/-! DEFINITION. The Control-Flow Unit: JMPNEQ and JMPEQ (42_branch.md R170 to R173). -/

namespace Sys2Proof.Machine

/-- JMPNEQ's condition on the selected values (R171; single-register polarity 90_conflicts.md C6, log 15). -/
def takenNeq : List Byte → Bool
  | [] => true
  | [v] => v != 0
  | v :: vs => vs.any fun w => w != v

/-- JMPEQ's condition on the selected values (R172). -/
def takenEq : List Byte → Bool
  | [] => true
  | [v] => v == 0
  | v :: vs => vs.all fun w => w == v

/-- Both bytes are consumed; then pc is overwritten if the branch is taken (R170). -/
def branch (taken : Bool) (target : Byte) (s : State) : State :=
  if taken then jumpTo target (consume 2 s) else consume 2 s

/-- JMPNEQ (R171). -/
def execJmpneq (m : Mask) (target : Byte) (s : State) : Host.Outcome State Fault Refusal :=
  .next (branch (takenNeq (values s.regs (select m))) target s)

/-- JMPEQ (R172). -/
def execJmpeq (m : Mask) (target : Byte) (s : State) : Host.Outcome State Fault Refusal :=
  .next (branch (takenEq (values s.regs (select m))) target s)

end Sys2Proof.Machine
end

