-- ==== Sys2Proof/Machine/Interrupt.lean ====
section
/-! DEFINITION. The Interrupt Dispatcher: ITR (44_interrupt.md R200 to R204). -/

namespace Sys2Proof.Machine

/-- The callback in slot k, if it is bound (10_state.md R32). -/
def slot (itab : Itab) (k : Nibble) : Option Binding := itab[k.toNat]'k.isLt

/-- The whole machine state, passed to a host callback (44_interrupt.md R200; 60_exceptions.md R237). -/
def hostView (s : State) : HostView :=
  { flags := s.flags, pc := s.pc, regs := s.regs, mem := s.mem.toBytes, itab := s.itab }

/-- The end of any callback: flags[1:0] = 0b10 breaks the host's contract and is refused (44_interrupt.md R201;
log 7); otherwise control returns to the loop. -/
def endCallback (s : State) : Host.Outcome State Fault Refusal :=
  if flagsLegal s.flags then .next s else .refused .exceptionWithoutHalt

/-- The state a returned callback leaves: every component of the machine as it left it, its output appended
(44_interrupt.md R200, R201). The host's setting for empty slots is no machine state, so it stays. -/
def afterCallback (s : State) (after : HostView) (out : List OutputEvent) : State :=
  { flags := after.flags, pc := after.pc, regs := after.regs, mem := Memory.ofBytes after.mem,
    itab := after.itab, unboundItr := s.unboundItr, output := s.output ++ out, draws := s.draws + 1 }

/-- What the CORE makes of a host callback's answer. Re-entry is refused (44_interrupt.md R204; log 8). -/
def acceptAnswer (s : State) : CallbackAnswer → Host.Outcome State Fault Refusal
  | .returned after out => endCallback (afterCallback s after out)
  | .reentered => .refused .reentrantRun

/-- Runs host callback `id`, invoked through slot `k`: its answer is the free value `Config.callback` (log 4). -/
def runHost (id : Nat) (k : Nibble) (s : State) : Host.Outcome State Fault Refusal :=
  acceptAnswer s (Config.callback id k s.draws (hostView s))

/-- Runs a bound callback. The conventional ones change nothing and append one event (44_interrupt.md R202; log 9). -/
def runBinding (k : Nibble) (s : State) : Binding → Host.Outcome State Fault Refusal
  | .dump => endCallback (emitOutput [.dump s.flags s.pc s.regs s.mem] s)
  | .emit => endCallback (emitOutput [.emit (s.regs.get .r1)] s)
  | .host id => runHost id k s

/-- ITR to an empty slot, as the parameter `unboundItr` says (44_interrupt.md R203; log 6). -/
def runUnbound (k : Nibble) (s : State) : Host.Outcome State Fault Refusal :=
  match s.unboundItr with
  | .refuse => .refused .unboundInterrupt
  | .callback id => runHost id k s

/-- Invokes the callback in slot k (44_interrupt.md R200). -/
def invoke (k : Nibble) (s : State) : Host.Outcome State Fault Refusal :=
  match slot s.itab k with
  | none => runUnbound k s
  | some b => runBinding k s b

/-- ITR (R200): the instruction byte is consumed first, so the callback sees pc = ia + 1. -/
def execItr (k : Nibble) (s : State) : Host.Outcome State Fault Refusal :=
  invoke k (consume 1 s)

end Sys2Proof.Machine
end

