-- ==== Sys2Proof/Machine/LoadIncDec.lean ====
section
/-! DEFINITION. HALT, LOADI, INC, DEC, LOADR (40_load_incdec.md R100 to R104). A meaning starts with pc at the
instruction byte (ia) and consumes the instruction's bytes itself (log 17). -/

namespace Sys2Proof.Machine

/-- HALT (R100). After it pc = ia + 1 (90_conflicts.md C2, log 14). -/
def execHalt (s : State) : Host.Outcome State Fault Refusal :=
  .next (haltMachine (consume 1 s))

/-- LOADI (R101). -/
def execLoadi (d : Mask) (imms : List Byte) (s : State) : Host.Outcome State Fault Refusal :=
  .next { consume (1 + popcount d) s with regs := s.regs.setAll (select d) imms }

/-- The composite of a mask's registers changed by `delta`, modulo its width; the empty mask is a no-op
(R102, R103). -/
def addComposite (delta : Int) (m : Mask) (f : RegFile) : RegFile :=
  match select m with
  | [] => f
  | L => unpack (pack f L + delta) L f

/-- INC (R102). -/
def execInc (m : Mask) (s : State) : Host.Outcome State Fault Refusal :=
  .next { consume 1 s with regs := addComposite 1 m s.regs }

/-- DEC (R103). -/
def execDec (m : Mask) (s : State) : Host.Outcome State Fault Refusal :=
  .next { consume 1 s with regs := addComposite (-1) m s.regs }

/-- LOADR (R104): every read comes before any write. -/
def execLoadr (d : Mask) (src : Byte) (s : State) : Host.Outcome State Fault Refusal :=
  match loadrSource d src with
  | .error c => .next (raiseException c (consume 2 s))
  | .ok L =>
    let bytes := (values s.regs L).map (memRead s)
    .next { consume 2 s with regs := s.regs.setAll (select d) bytes }

end Sys2Proof.Machine
end

