-- ==== Sys2Proof/Machine/Store.lean ====
section
/-! DEFINITION. STOR (43_store.md R190). -/

namespace Sys2Proof.Machine

/-- STOR (R190): both bytes are consumed before the first write; the k-th selected register goes to base + k. -/
def execStor (m : Mask) (base : Byte) (s : State) : Host.Outcome State Fault Refusal :=
  .next (storeBytes (consume 2 s) base (values s.regs (select m)))

end Sys2Proof.Machine
end

