-- ==== Sys2Proof/Machine/Dispatch.lean ====
section
/-! DEFINITION. One arm per instruction (30_encoding.md R81): each calls the instruction's own meaning. -/

namespace Sys2Proof.Machine

/-- The effect of an instruction on a machine whose pc is at its first byte. -/
def exec (i : Instr) (s : State) : Host.Outcome State Fault Refusal :=
  match i with
  | .halt => Sys2Proof.Machine.execHalt s
  | .loadi d imms => Sys2Proof.Machine.execLoadi d imms s
  | .inc m => Sys2Proof.Machine.execInc m s
  | .dec m => Sys2Proof.Machine.execDec m s
  | .loadr d src => Sys2Proof.Machine.execLoadr d src s
  | .add d src => Sys2Proof.Machine.execAdd d src s
  | .sub d src => Sys2Proof.Machine.execSub d src s
  | .mul d src => Sys2Proof.Machine.execMul d src s
  | .div d src => Sys2Proof.Machine.execDiv d src s
  | .and d src => Sys2Proof.Machine.execAnd d src s
  | .or d src => Sys2Proof.Machine.execOr d src s
  | .xor d src => Sys2Proof.Machine.execXor d src s
  | .rotr m => Sys2Proof.Machine.execRotr m s
  | .jmpneq m target => Sys2Proof.Machine.execJmpneq m target s
  | .jmpeq m target => Sys2Proof.Machine.execJmpeq m target s
  | .stor m base => Sys2Proof.Machine.execStor m base s
  | .itr k => Sys2Proof.Machine.execItr k s

end Sys2Proof.Machine
end

