-- ==== Sys2Proof/Machine/Fetch.lean ====
section
/-! DEFINITION. Reading the instruction at pc out of memory (30_encoding.md R71, R81; 20_memory.md R41). -/

namespace Sys2Proof.Machine

/-- The instruction at pc: its byte there, its trailing bytes at the next addresses modulo 256
(30_encoding.md R61; 20_memory.md R43). -/
def fetchInstr (om : OpcodeMap) (s : State) : Instr :=
  decodeInstr om (memRead s s.pc) fun k => memRead s (s.pc + BitVec.ofNat 8 (k + 1))

/-- The memory with an instruction word laid out from pc, for `State.withFetchWord`. -/
def placeWord (s : State) (nbits w : Nat) : State := storeBytes s s.pc (wordBytes nbits w)

end Sys2Proof.Machine
end

