-- ==== Sys2Proof/Machine/Step.lean ====
section
/-! DEFINITION. One step of the execution loop (30_encoding.md R81). -/

namespace Sys2Proof.Machine

/-- One step under an opcode map: a HALTED machine has none (30_encoding.md R82; log 18); a RUNNING one executes the
instruction at pc, which consumes its own bytes (log 17). -/
def stepWith (om : OpcodeMap) (s : State) : Host.Outcome State Fault Refusal :=
  match s.runState with
  | .halted => .fault .halted
  | .running => exec (fetchInstr om s) s

/-- One step under the default opcode map. -/
def step (s : State) : Host.Outcome State Fault Refusal := stepWith tableOpcodeMap s

/-- The state with an instruction word where the next step fetches: in memory at pc (log 20). -/
def State.withFetchWord (s : State) (nbits w : Nat) : State := placeWord s nbits w

end Sys2Proof.Machine
end

