-- ==== Sys2Proof/Machine/Boot.lean ====
section
/-! DEFINITION. Construction and the loader's interface (70_reset_and_hazards.md R250 to R252): the LOAD and CONFIG
transactions of 60_exceptions.md R237. -/

namespace Sys2Proof.Machine

/-- The cells of an image whose first byte stands at address `a`. -/
def imageCells (a : Nat) : List Byte → Memory
  | [] => []
  | b :: bs => if b = Memory.unlisted then imageCells (a + 1) bs else (a, b) :: imageCells (a + 1) bs

/-- `load(image)`: the image from address 0, the rest zero; an image of more than 256 bytes is rejected (R251). -/
def load (image : List Byte) : Option Memory :=
  if image.length > 256 then none else some (imageCells 0 image)

/-- A constructed machine: flags, pc and registers 0, memory loaded, the table and what an empty slot does as the host
supplies them (10_state.md R34; 70_reset_and_hazards.md R252; 00_scope.md R9). -/
def construct (image : List Byte) (itab : Itab) (unboundItr : Config.UnboundItr) : Option State :=
  (load image).map fun mem =>
    { flags := 0x00, pc := 0x00, regs := ⟨0x00, 0x00, 0x00, 0x00⟩, mem := mem, itab := itab,
      unboundItr := unboundItr, output := [], draws := 0 }

end Sys2Proof.Machine
end

