-- ==== Sys2Proof/Machine/Exceptions.lean ====
section
/-! DEFINITION. The exception an instruction raises, as the table of causes and the order of the checks give it
(60_exceptions.md R222, R224). The cause is a ghost: no state records it (R223; log 19). -/

namespace Sys2Proof.Machine

/-- The source-mask check of ADD to XOR: high nibble, then count (60_exceptions.md R224). -/
def binaryMaskCause (src : Byte) : Option ExcCause :=
  if highNibble src ≠ 0 then some .badSourceMask
  else if popcount (lowNibble src) ≠ 2 then some .badSourceMask
  else none

/-- The second selected register of a source byte: DIV's divisor (41_alu.md R130, R135). -/
def secondOperand (src : Byte) (f : RegFile) : Byte :=
  match (select (lowNibble src)).getLast? with
  | some q => f.get q
  | none => 0

/-- The cause of the exception an instruction raises in a state, or none (60_exceptions.md R222). -/
def exceptionCause (i : Instr) (s : State) : Option ExcCause :=
  match i with
  | .loadr d src =>
    if highNibble src ≠ 0 then some .badSourceMask
    else if popcount (lowNibble src) ≠ popcount d then some .popMismatch
    else none
  | .add _ src | .sub _ src | .mul _ src => binaryMaskCause src
  | .and _ src | .or _ src | .xor _ src => binaryMaskCause src
  | .div _ src =>
    match binaryMaskCause src with
    | some c => some c
    | none => if secondOperand src s.regs = 0 then some .divByZero else none
  | .halt | .loadi _ _ | .inc _ | .dec _ | .rotr _ => none
  | .jmpneq _ _ | .jmpeq _ _ | .stor _ _ | .itr _ => none

end Sys2Proof.Machine
end

