-- ==== Sys2Proof/Machine/Loop.lean ====
section
/-! DEFINITION. The Execution Loop (30_encoding.md R80 to R83) and what the host sees of a run
(60_exceptions.md R237: RUN, DONE, STATUS, INSPECT). -/

namespace Sys2Proof.Machine

/-- How a run under fuel comes out. -/
inductive LoopResult where
  /-- The halt flag was observed in this state (30_encoding.md R83). -/
  | ended (s : State)
  /-- The fuel ran out in this RUNNING state, which says nothing about the run (70_reset_and_hazards.md R257). -/
  | running (s : State)
  /-- A step was refused: the run is outside the model. -/
  | refused (r : Refusal)
deriving DecidableEq, Repr

/-- `while flags[0] == 0: step()` under an opcode map, at most `fuel` steps; the flag is tested before every fetch, the
first included (30_encoding.md R80; log 18). -/
def runLoop (om : OpcodeMap) : Nat → State → LoopResult
  | 0, s =>
    match s.runState with
    | .halted => .ended s
    | .running => .running s
  | fuel + 1, s =>
    match s.runState with
    | .halted => .ended s
    | .running =>
      match stepWith om s with
      | .next t => runLoop om fuel t
      | .fault .halted => .ended s
      | .refused r => .refused r

/-- The observable result of a run (30_encoding.md R83). -/
structure Observation where
  regs : RegFile
  pc : Byte
  flags : Byte
  mem : Memory
  output : List OutputEvent
deriving DecidableEq, Repr

/-- INSPECT and the output trace (60_exceptions.md R237; 30_encoding.md R83). -/
def observe (s : State) : Observation :=
  { regs := s.regs, pc := s.pc, flags := s.flags, mem := s.mem, output := s.output }

/-- STATUS: (halted, exception) (60_exceptions.md R237). -/
def status (s : State) : Bool × Bool := (haltFlag s.flags, exceptionFlag s.flags)

/-- The output of a run as the host writes it out, event after event (44_interrupt.md R202; log 10). -/
def writtenOutput (s : State) : List String := s.output.map Config.isrOutput

end Sys2Proof.Machine
end

