-- ==== Sys2Proof/Safety.lean ====
section
/-! DEFINITION. What counts as a safe state and a safe run, and the words the statements use. -/

namespace Sys2Proof.Machine

/-! ## Safe states and runs -/

/-- The machine invariant: memory is in its canonical form, and the exception bit never stands without the halt
bit (10_state.md R28). -/
abbrev MachineInv (s : State) : Prop := s.mem.wf ∧ flagsLegal s.flags = true

/-- The launch premise (70_reset_and_hazards.md R253): a state that some image, some table and some behaviour of
an empty slot construct. -/
def Launch (s : State) : Prop := ∃ image itab unboundItr, construct image itab unboundItr = some s

/-- The states of the runs under an opcode map that start at a launch. -/
inductive Reachable (om : OpcodeMap) : State → Prop where
  | launch {s : State} : Launch s → Reachable om s
  | step {s t : State} : Reachable om s → stepWith om s = .next t → Reachable om t

/-- The run from `s` under an opcode map ends in `t` (30_encoding.md R83). -/
def Ends (om : OpcodeMap) (s t : State) : Prop := ∃ fuel, runLoop om fuel s = .ended t

/-- A safe run: no step of it is refused, so the host keeps its contract (60_exceptions.md R238). -/
def SafeRun (om : OpcodeMap) (s : State) : Prop := ∀ fuel r, runLoop om fuel s ≠ .refused r

/-! ## Words of the statements -/

/-- The two source registers of each of the six valid source-mask bytes (41_alu.md R130), written out. -/
def sourcePair (src : Byte) : Option (Reg × Reg) :=
  if src = 0x03 then some (.r1, .r2)
  else if src = 0x05 then some (.r1, .r3)
  else if src = 0x06 then some (.r2, .r3)
  else if src = 0x09 then some (.r1, .r4)
  else if src = 0x0A then some (.r2, .r4)
  else if src = 0x0C then some (.r3, .r4)
  else none

/-- The registers an instruction may write itself (10_state.md R23). -/
def destinations : Instr → List Reg
  | .loadi d _ => select d
  | .inc m => select m
  | .dec m => select m
  | .loadr d _ => select d
  | .add d _ => select d
  | .sub d _ => select d
  | .mul d _ => select d
  | .div d _ => select d
  | .and d _ => select d
  | .or d _ => select d
  | .xor d _ => select d
  | .rotr m => select m
  | .halt => []
  | .jmpneq _ _ => []
  | .jmpeq _ _ => []
  | .stor _ _ => []
  | .itr _ => []

/-- The addresses an instruction stores to: STOR's `base + k`, modulo 256, one for each selected register
(43_store.md R190); no other instruction stores (20_memory.md R42). -/
def storedAddresses : Instr → List Byte
  | .stor m base => (List.range (popcount m)).map fun k => base + BitVec.ofNat 8 k
  | .halt => []
  | .loadi _ _ => []
  | .inc _ => []
  | .dec _ => []
  | .loadr _ _ => []
  | .add _ _ => []
  | .sub _ _ => []
  | .mul _ _ => []
  | .div _ _ => []
  | .and _ _ => []
  | .or _ _ => []
  | .xor _ _ => []
  | .rotr _ => []
  | .jmpneq _ _ => []
  | .jmpeq _ _ => []
  | .itr _ => []

/-- The instruction is an ITR that runs a host callback, the one instruction whose effect the host decides: its slot is
bound to one (44_interrupt.md R201), or is empty and the host supplies one for empty slots (R203). -/
def runsHostCode (i : Instr) (s : State) : Prop :=
  ∃ k id, i = .itr k ∧ (slot s.itab k = some (.host id) ∨ (slot s.itab k = none ∧ s.unboundItr = .callback id))

/-- The conditions under which an instruction raises an exception, as the table of 60_exceptions.md R222 has them. -/
def raiseCondition (i : Instr) (s : State) : Prop :=
  match i with
  | .loadr d src => highNibble src ≠ 0 ∨ popcount (lowNibble src) ≠ popcount d
  | .add _ src => highNibble src ≠ 0 ∨ popcount (lowNibble src) ≠ 2
  | .sub _ src => highNibble src ≠ 0 ∨ popcount (lowNibble src) ≠ 2
  | .mul _ src => highNibble src ≠ 0 ∨ popcount (lowNibble src) ≠ 2
  | .and _ src => highNibble src ≠ 0 ∨ popcount (lowNibble src) ≠ 2
  | .or _ src => highNibble src ≠ 0 ∨ popcount (lowNibble src) ≠ 2
  | .xor _ src => highNibble src ≠ 0 ∨ popcount (lowNibble src) ≠ 2
  | .div _ src =>
    highNibble src ≠ 0 ∨ popcount (lowNibble src) ≠ 2 ∨ ∃ p q, sourcePair src = some (p, q) ∧ s.regs.get q = 0
  | .halt => False
  | .loadi _ _ => False
  | .inc _ => False
  | .dec _ => False
  | .rotr _ => False
  | .jmpneq _ _ => False
  | .jmpeq _ _ => False
  | .stor _ _ => False
  | .itr _ => False

end Sys2Proof.Machine
end

