-- ==== Sys2Proof/Certificates/Slice0/Obligations.lean ====
section
/-! DEFINITION. The statements for the provers, from the numbered rules of spec/. In every one of them `s.pc` is ia,
the address of the instruction byte, because a meaning consumes its own bytes (log 17). An instruction byte is
written as its two fields, opcode and argument. The opcode values of the default map are the spec's decision D1 (log 1):
the statement of an instruction holds its format under EVERY opcode map, and one statement holds the default values. -/

open Sys2Proof Sys2Proof.Machine

/-! ## Encoding -/

/-- Decoding the encoding of a well-formed instruction gives it back with what follows, under every opcode map
(30_encoding.md R60 to R64). -/
def Obligations.DecodeAfterEncodeIsIdentity : Prop :=
  ∀ (om : OpcodeMap) (i : Instr) (rest : List Byte), i.wellFormed = true →
    decodeWith om (encodeWith om i ++ rest) = .ok (i, rest)

/-- Whatever the decoder reads is well formed, and its encoding is the bytes it was read from. -/
def Obligations.EncodeAfterDecodeIsIdentity : Prop :=
  ∀ (om : OpcodeMap) (bs : List Byte) (i : Instr) (rest : List Byte), decodeWith om bs = .ok (i, rest) →
    i.wellFormed = true ∧ encodeWith om i ++ rest = bs

/-- Every byte value begins an instruction, and no two begin the same one (30_encoding.md R74). -/
def Obligations.EveryByteBeginsItsOwnInstruction : Prop :=
  (∀ (om : OpcodeMap) (b : Byte) (bs : List Byte), 4 ≤ bs.length →
    ∃ i rest, decodeWith om (b :: bs) = .ok (i, rest)) ∧
  ∀ (om : OpcodeMap) (b b' : Byte) (bs : List Byte) (i : Instr) (rest rest' : List Byte),
    decodeWith om (b :: bs) = .ok (i, rest) → decodeWith om (b' :: bs) = .ok (i, rest') → b = b'

/-- The length of every instruction, found from its first byte, and the decoder consumes exactly that many bytes
(30_encoding.md R63). -/
def Obligations.LengthIsFoundFromTheFirstByte : Prop :=
  ∀ (om : OpcodeMap) (b : Byte) (bs : List Byte) (i : Instr) (rest : List Byte),
    decodeWith om (b :: bs) = .ok (i, rest) →
    i.length = (match om.ofOpcode (highNibble b) with
      | .loadi => 1 + popcount (lowNibble b)
      | .inc | .dec | .rotr | .itr => 1
      | .loadr | .add | .sub | .mul | .div | .and | .or | .xor | .jmpneq | .jmpeq | .stor => 2) ∧
    bs.length + 1 = i.length + rest.length

/-- The default opcode map: the values 0x0 to 0xF in the order of the opcode table. All but LOADI's are the spec's
decision D1 (log 1), no rule of the source. -/
def Obligations.DefaultOpcodesFollowTheTable : Prop :=
  tableOpcodeMap.ofOpcode 0x0 = .loadi ∧ tableOpcodeMap.ofOpcode 0x1 = .inc ∧
  tableOpcodeMap.ofOpcode 0x2 = .dec ∧ tableOpcodeMap.ofOpcode 0x3 = .loadr ∧
  tableOpcodeMap.ofOpcode 0x4 = .add ∧ tableOpcodeMap.ofOpcode 0x5 = .sub ∧
  tableOpcodeMap.ofOpcode 0x6 = .mul ∧ tableOpcodeMap.ofOpcode 0x7 = .div ∧
  tableOpcodeMap.ofOpcode 0x8 = .and ∧ tableOpcodeMap.ofOpcode 0x9 = .or ∧
  tableOpcodeMap.ofOpcode 0xA = .xor ∧ tableOpcodeMap.ofOpcode 0xB = .rotr ∧
  tableOpcodeMap.ofOpcode 0xC = .jmpneq ∧ tableOpcodeMap.ofOpcode 0xD = .jmpeq ∧
  tableOpcodeMap.ofOpcode 0xE = .stor ∧ tableOpcodeMap.ofOpcode 0xF = .itr

/-- Words of the spec's own vectors (95_test_vectors.md sections 1 and 2; the JMPNEQ word is program P1's of section 3 and
the example of 42_branch.md R171), one or more per family, decode to what they stand for under the default map (decision
D1, log 1). -/
def Obligations.WordsOfTheSpecDecode : Prop :=
  decode [0x00] = .ok (.halt, []) ∧
  decode [0x0A, 0x11, 0x22] = .ok (.loadi 0xA [0x11, 0x22], []) ∧
  decode [0x15] = .ok (.inc 0x5, []) ∧
  decode [0x28] = .ok (.dec 0x8, []) ∧
  decode [0x38, 0x04] = .ok (.loadr 0x8 0x04, []) ∧
  decode [0x74, 0x03] = .ok (.div 0x4 0x03, []) ∧
  decode [0x8F, 0x03] = .ok (.and 0xF 0x03, []) ∧
  decode [0xB7] = .ok (.rotr 0x7, []) ∧
  decode [0xC1, 0x02] = .ok (.jmpneq 0x1 0x02, []) ∧
  decode [0xE3, 0x50] = .ok (.stor 0x3 0x50, []) ∧
  decode [0xF1] = .ok (.itr 0x1, [])

/-! ## The step -/

/-- On a RUNNING machine, when the bytes from pc on decode to an instruction, a step is exec of it at that state;
nothing is added around it, because exec consumes the instruction's bytes (30_encoding.md R81; log 17). -/
def Obligations.StepRunsTheDecodedInstruction : Prop :=
  (∀ (s : State) (n : Nat) (i : Instr) (rest : List Byte), haltFlag s.flags = false →
    decode (fetchN n s).1 = .ok (i, rest) → step s = exec i s) ∧
  ∀ (om : OpcodeMap) (s : State) (n : Nat) (i : Instr) (rest : List Byte), haltFlag s.flags = false →
    decodeWith om (fetchN n s).1 = .ok (i, rest) → stepWith om s = exec i s

/-- A HALTED machine takes no step (30_encoding.md R82). That this is the fault `halted` is the model's choice
(log 18). -/
def Obligations.HaltedMachineHasNoStep : Prop :=
  ∀ (om : OpcodeMap) (s : State), haltFlag s.flags = true → stepWith om s = .fault .halted

/-- A RUNNING machine never faults, and its step is refused only inside an ITR that breaks the host's contract: to an
empty slot for which the host defines no behaviour, or by what a callback did (60_exceptions.md R238; logs 6, 7, 8). -/
def Obligations.RunningStepStopsOnlyInsideItr : Prop :=
  ∀ (om : OpcodeMap) (s : State), haltFlag s.flags = false →
    (∃ t, stepWith om s = .next t) ∨
    ∃ k, fetchInstr om s = .itr k ∧
      ((slot s.itab k = none ∧ s.unboundItr = .refuse ∧ stepWith om s = .refused .unboundInterrupt) ∨
        (¬ (slot s.itab k = none ∧ s.unboundItr = .refuse) ∧
          (stepWith om s = .refused .exceptionWithoutHalt ∨ stepWith om s = .refused .reentrantRun)))

/-- The instruction at pc is well formed, and fetching as many bytes as it is long gives its encoding in address
order and leaves pc just past it (30_encoding.md R71; 10_state.md R26; 20_memory.md R43). -/
def Obligations.FetchConsumesTheEncoding : Prop :=
  ∀ (om : OpcodeMap) (s : State),
    (fetchInstr om s).wellFormed = true ∧
    fetchN (fetchInstr om s).length s =
      (encodeWith om (fetchInstr om s), { s with pc := s.pc + BitVec.ofNat 8 (fetchInstr om s).length })

/-- Every step keeps the invariant: memory in canonical form, and no exception bit without the halt bit
(10_state.md R28). -/
def Obligations.StepKeepsTheInvariant : Prop :=
  ∀ (om : OpcodeMap) (s t : State), MachineInv s → stepWith om s = .next t → MachineInv t

/-- The invariant holds after reset. -/
def Obligations.ResetMeetsTheInvariant : Prop := MachineInv State.reset

/-- Every state of a run that starts at a launch meets the invariant, and a run ends in such a state with the halt bit
set, under every opcode map, table and behaviour of an empty slot (70_reset_and_hazards.md R253; 30_encoding.md R83). The
canonical form of memory is the model's own (log 21), and that a callback keeps the flags clause is the refusal of one
that would not, the spec's decision D9 (log 7). -/
def Obligations.LaunchedRunsMeetTheInvariant : Prop :=
  (∀ (om : OpcodeMap) (s : State), Reachable om s → MachineInv s) ∧
  ∀ (om : OpcodeMap) (s t : State), Launch s → Ends om s t → Reachable om t ∧ haltFlag t.flags = true

/-! ## What an instruction leaves unchanged, over the whole instruction set -/

/-- Who writes flags: HALT sets bit 0, an exception sets bits 0 and 1, host code inside ITR writes what it likes, and
nothing else writes any bit (10_state.md R29, R30). An ITR through a conventional callback is among the cases: that such a
callback leaves flags alone is the spec's decision D20 (log 9). -/
def Obligations.FlagsChangeOnlyByHaltExceptionOrHost : Prop :=
  ∀ (i : Instr) (s t : State), exec i s = .next t → ¬ runsHostCode i s →
    (i = .halt → t.flags = s.flags ||| 0x01) ∧
    (raiseCondition i s → t.flags = s.flags ||| 0x03) ∧
    (i ≠ .halt → ¬ raiseCondition i s → t.flags = s.flags) ∧
    reservedFlags t.flags = reservedFlags s.flags

/-- pc ends just past the instruction, but for a jump, which may put its target there, and host code
(10_state.md R26, R27). That a conventional callback inside ITR leaves pc alone is the spec's decision D20 (log 9). -/
def Obligations.PcAdvancesByTheLengthExceptInJumps : Prop :=
  ∀ (i : Instr) (s t : State), exec i s = .next t → ¬ runsHostCode i s →
    t.pc = s.pc + BitVec.ofNat 8 i.length ∨
    ∃ m target, (i = .jmpneq m target ∨ i = .jmpeq m target) ∧ t.pc = target

/-- Registers outside an instruction's destination mask keep their values, but for host code; on an exception every
register does (10_state.md R23; 60_exceptions.md R221). That a conventional callback inside ITR writes no register is
the spec's decision D20 (log 9). -/
def Obligations.RegistersChangeOnlyInTheDestinationMask : Prop :=
  ∀ (i : Instr) (s t : State), exec i s = .next t → ¬ runsHostCode i s →
    (∀ r, r ∉ destinations i → t.regs.get r = s.regs.get r) ∧
    (raiseCondition i s → ∀ r, t.regs.get r = s.regs.get r)

/-- Every byte of memory outside the bytes STOR stores to reads as before, but for host code (20_memory.md R42;
43_store.md R190; the address wrap is the spec's decision D4, log 11). That a conventional callback inside ITR writes no
memory is the spec's decision D20 (log 9). -/
def Obligations.MemoryChangesOnlyWhereStorStores : Prop :=
  ∀ (i : Instr) (s t : State), exec i s = .next t → ¬ runsHostCode i s →
    ∀ b : Byte, b ∉ storedAddresses i → memRead t b = memRead s b

/-- The interrupt table changes only inside host code, the output trace only inside ITR (10_state.md R32;
44_interrupt.md R200). That a conventional callback inside ITR rebinds no slot is the spec's decision D20 (log 9). The
model's own: its counter moves only with host code (log 4), output is only appended (log 10), and nothing at all changes
the host's setting for empty slots (log 6). -/
def Obligations.TableAndOutputChangeOnlyInsideItr : Prop :=
  ∀ (i : Instr) (s t : State), exec i s = .next t →
    (¬ runsHostCode i s → t.itab = s.itab ∧ t.draws = s.draws) ∧
    ((∀ k, i ≠ .itr k) → t.output = s.output) ∧
    t.unboundItr = s.unboundItr ∧
    ∃ out, t.output = s.output ++ out

/-- No instruction but ITR ever stops: each answers a next state from every state. -/
def Obligations.EveryInstructionButItrCompletes : Prop :=
  ∀ (i : Instr) (s : State), (∀ k, i ≠ .itr k) → ∃ t, exec i s = .next t

/-- No instruction but ITR's callback looks at flags: from two states that differ in flags alone, every instruction
sets the same flag bits and does the same to everything else (10_state.md R30). -/
def Obligations.NoInstructionReadsFlags : Prop :=
  ∀ (i : Instr) (s : State) (f : Byte), (∀ k, i ≠ .itr k) →
    ∃ (t : State) (g : Byte), exec i s = .next t ∧ t.flags = s.flags ||| g ∧
      exec i { s with flags := f } = .next { t with flags := f ||| g }

/-! ## The mask resolver and the codec -/

/-- `select` and `popcount` (30_encoding.md R65, R66). -/
def Obligations.SelectListsTheMaskInAscendingOrder : Prop :=
  ∀ m : Mask,
    (Reg.r1 ∈ select m ↔ m.getLsbD 0 = true) ∧ (Reg.r2 ∈ select m ↔ m.getLsbD 1 = true) ∧
    (Reg.r3 ∈ select m ↔ m.getLsbD 2 = true) ∧ (Reg.r4 ∈ select m ↔ m.getLsbD 3 = true) ∧
    (select m).Pairwise (fun r q => r.position < q.position) ∧
    popcount m = (List.range 4).countP (fun i => m.getLsbD i) ∧ (select m).length = popcount m

/-- A source byte gives the binary operations exactly the operand pair of the table of six valid masks, the first
operand the lower-numbered register; every other byte is bad (30_encoding.md R67, R75; 41_alu.md R130). -/
def Obligations.SourceByteGivesTheTabledPair : Prop :=
  (∀ (src : Byte) (f : RegFile) (p q : Reg), sourcePair src = some (p, q) →
    binarySource src f = .ok (f.get p, f.get q) ∧ p.position < q.position) ∧
  (∀ (src : Byte) (f : RegFile), sourcePair src = none → binarySource src f = .error .badSourceMask) ∧
  ∀ src : Byte, sourcePair src ≠ none ↔ highNibble src = 0 ∧ popcount (lowNibble src) = 2

/-- `pack` is the sum of the registers' values, the k-th weighted by 256^k (30_encoding.md R68). -/
def Obligations.PackIsTheLittleEndianSum : Prop :=
  ∀ (f : RegFile) (L : List Reg),
    pack f L = ((List.range L.length).map fun k => (f.get (L.getD k .r1)).toNat * 256 ^ k).sum ∧
    pack f L < 2 ^ (8 * L.length)

/-- `unpack` puts byte k of v modulo 2^(8N) into the k-th register and touches no other; with no register it writes
nothing, which is the spec's decision D5 (30_encoding.md R69; log 12). -/
def Obligations.UnpackWritesTheBytesOfTheNarrowedValue : Prop :=
  ∀ (v : Int) (L : List Reg) (f : RegFile), L.Nodup →
    (∀ (k : Nat) (r : Reg), L[k]? = some r →
      (((unpack v L f).get r).toNat : Int) = (v % 2 ^ (8 * L.length)) / 256 ^ k % 256) ∧
    (∀ r, r ∉ L → (unpack v L f).get r = f.get r) ∧
    unpack v [] f = f

/-- Unpacking what was packed restores every register, for every mask (95_test_vectors.md W1). -/
def Obligations.UnpackAfterPackIsIdentity : Prop :=
  ∀ (m : Mask) (f : RegFile), unpack (pack f (select m)) (select m) f = f

/-! ## Memory, construction, the loop -/

/-- `MemWrite` then `MemRead` (20_memory.md R44). The canonical form is the model's own (log 21). -/
def Obligations.MemoryReadsWhatWasWritten : Prop :=
  ∀ (s : State) (a v : Byte), s.mem.wf →
    memRead (memWrite s a v) a = v ∧
    (∀ b, b ≠ a → memRead (memWrite s a v) b = memRead s b) ∧
    ∃ m : Memory, m.wf ∧ memWrite s a v = { s with mem := m }

/-- Equal memories are equal data: two memories in canonical form that read alike at every address are one list, and a
host callback that changes no byte changes nothing in it. -/
def Obligations.CanonicalMemoriesThatReadAlikeAreEqual : Prop :=
  (∀ m m' : Memory, m.wf → m'.wf → (∀ a, a < 256 → m.read a = m'.read a) → m = m') ∧
  ∀ m : Memory, m.wf → Memory.ofBytes m.toBytes = m

/-- The loader's interface (70_reset_and_hazards.md R251). That the loaded memory is in canonical form is the model's own
(log 21). -/
def Obligations.LoadZeroFillsAndRejectsLongImages : Prop :=
  ∀ image : List Byte,
    (image.length > 256 → load image = none) ∧
    (image.length ≤ 256 → ∃ m, load image = some m ∧ m.wf ∧ ∀ a, a < 256 → m.read a = image.getD a 0x00)

/-- The state after construction, for every image, every table and every behaviour of an empty slot the host supplies
(10_state.md R34). -/
def Obligations.ConstructionGivesTheResetValues : Prop :=
  ∀ (image : List Byte) (itab : Itab) (u : Config.UnboundItr), image.length ≤ 256 →
    ∃ s, construct image itab u = some s ∧ s.flags = 0x00 ∧ s.pc = 0x00 ∧ (∀ r, s.regs.get r = 0x00) ∧
      (∀ a : Byte, memRead s a = image.getD a.toNat 0x00) ∧ s.itab = itab ∧ s.runState = .running

/-- Reset is construction of the empty image. The table is the model's choice (log 2), as are the empty trace and the
counter at 0 (log 3); that an empty slot is refused is the spec's default, decision D8 (log 6). Construction keeps
whatever behaviour of an empty slot the host supplies. -/
def Obligations.ResetIsConstructionWithTheConventionalTable : Prop :=
  construct [] conventionalItab .refuse = some State.reset ∧
  ∀ (image : List Byte) (itab : Itab) (u : Config.UnboundItr) (s : State),
    construct image itab u = some s → s.unboundItr = u

/-- The loop, under every opcode map: the halt flag is tested before every fetch, the first included, and a RUNNING machine
takes a step (30_encoding.md R80; testing before the first fetch is the spec's decision D18, log 18). -/
def Obligations.LoopTestsTheHaltFlagBeforeEveryFetch : Prop :=
  (∀ (om : OpcodeMap) (n : Nat) (s : State), haltFlag s.flags = true → runLoop om n s = .ended s) ∧
  (∀ (om : OpcodeMap) (n : Nat) (s t : State), haltFlag s.flags = false → stepWith om s = .next t →
    runLoop om (n + 1) s = runLoop om n t) ∧
  ∀ (om : OpcodeMap) (n : Nat) (s : State) (r : Refusal), haltFlag s.flags = false → stepWith om s = .refused r →
    runLoop om (n + 1) s = .refused r

/-- The end of a run: it has the halt bit set, it is final, and it does not depend on the fuel (30_encoding.md R82,
R83). -/
def Obligations.EndOfRunIsHaltedAndFinal : Prop :=
  ∀ (om : OpcodeMap) (n : Nat) (s t : State), runLoop om n s = .ended t →
    haltFlag t.flags = true ∧ stepWith om t = .fault .halted ∧ (∀ k, runLoop om (n + k) s = .ended t) ∧
    ∀ (k : Nat) (u : State), runLoop om k s = .ended u → u = t

/-! ## Exceptions -/

/-- Taking an exception is precise: flags gain bits 0 and 1, pc is ia + 2, everything else is as it was, and the machine
is HALTED (60_exceptions.md R220, R221; OR into flags is the spec's decision D7, log 13). -/
def Obligations.ExceptionsArePreciseAndHalt : Prop :=
  ∀ (i : Instr) (s : State), raiseCondition i s →
    exec i s = .next { s with flags := s.flags ||| 0x03, pc := s.pc + 2 } ∧
    ∀ om : OpcodeMap, stepWith om { s with flags := s.flags ||| 0x03, pc := s.pc + 2 } = .fault .halted

/-- Exceptions are raised exactly under the conditions of the table, and the ghost cause is the first check that fails
(60_exceptions.md R222, R224; the order of LOADR's two checks and the cause itself are the spec's decision D17, and the
cause is in no state, log 19). -/
def Obligations.ExceptionsAreRaisedExactlyByTheTable : Prop :=
  (∀ (i : Instr) (s t : State), (∀ k, i ≠ .itr k) → exceptionFlag s.flags = false → exec i s = .next t →
    (exceptionFlag t.flags = true ↔ raiseCondition i s)) ∧
  (∀ (i : Instr) (s : State), exceptionCause i s ≠ none ↔ raiseCondition i s) ∧
  ∀ (i : Instr) (s : State),
    (exceptionCause i s = some .popMismatch ↔
      ∃ d src, i = .loadr d src ∧ highNibble src = 0 ∧ popcount (lowNibble src) ≠ popcount d) ∧
    (exceptionCause i s = some .divByZero ↔ ∃ d src p q, i = .div d src ∧ sourcePair src = some (p, q) ∧
      s.regs.get q = 0)

/-! ## HALT, LOADI, INC, DEC, LOADR -/

/-- HALT (40_load_incdec.md R100). That pc is ia + 1 after it is a choice, the resolution of 90_conflicts.md C2 (log 14);
that the halted machine's step is the fault `halted` is the model's (log 18). -/
def Obligations.HaltSetsTheHaltBit : Prop :=
  (∀ (om : OpcodeMap) (rest : List Byte), decodeWith om (0x00 :: rest) = .ok (.halt, rest)) ∧
  ∀ s : State,
    exec .halt s = .next { s with flags := s.flags ||| 0x01, pc := s.pc + 1 } ∧
    ∀ om : OpcodeMap, stepWith om { s with flags := s.flags ||| 0x01, pc := s.pc + 1 } = .fault .halted

/-- LOADI (40_load_incdec.md R101): each immediate to its register, in mask order. -/
def Obligations.LoadiLoadsItsImmediates : Prop :=
  ∀ (d : Mask) (imms : List Byte), d ≠ 0 → imms.length = popcount d →
    (∀ (om : OpcodeMap) (rest : List Byte),
      decodeWith om ((0x0#4 ++ d : BitVec (4 + 4)) :: (imms ++ rest)) = .ok (.loadi d imms, rest)) ∧
    ∀ s : State, ∃ f : RegFile,
      exec (.loadi d imms) s = .next { s with pc := s.pc + BitVec.ofNat 8 (1 + popcount d), regs := f } ∧
      (∀ (k : Nat) (r : Reg) (v : Byte), (select d)[k]? = some r → imms[k]? = some v → f.get r = v) ∧
      ∀ r, r ∉ select d → f.get r = s.regs.get r

/-- INC (40_load_incdec.md R102). -/
def Obligations.IncAddsOneToTheComposite : Prop :=
  ∀ m : Mask,
    (∀ (om : OpcodeMap) (rest : List Byte),
      decodeWith om ((om.toOpcode .inc ++ m : BitVec (4 + 4)) :: rest) = .ok (.inc m, rest)) ∧
    ∀ s : State, ∃ f : RegFile,
      exec (.inc m) s = .next { s with pc := s.pc + 1, regs := f } ∧
      pack f (select m) = (pack s.regs (select m) + 1) % 2 ^ (8 * popcount m) ∧
      ∀ r, r ∉ select m → f.get r = s.regs.get r

/-- DEC (40_load_incdec.md R103). -/
def Obligations.DecSubtractsOneFromTheComposite : Prop :=
  ∀ m : Mask,
    (∀ (om : OpcodeMap) (rest : List Byte),
      decodeWith om ((om.toOpcode .dec ++ m : BitVec (4 + 4)) :: rest) = .ok (.dec m, rest)) ∧
    ∀ s : State, ∃ f : RegFile,
      exec (.dec m) s = .next { s with pc := s.pc + 1, regs := f } ∧
      pack f (select m) = (pack s.regs (select m) + 2 ^ (8 * popcount m) - 1) % 2 ^ (8 * popcount m) ∧
      ∀ r, r ∉ select m → f.get r = s.regs.get r

/-- INC and DEC on one mask undo each other from every state, in either order (95_test_vectors.md W2). -/
def Obligations.IncAndDecUndoEachOther : Prop :=
  ∀ (m : Mask) (s : State),
    (∃ t u, exec (.inc m) s = .next t ∧ exec (.dec m) t = .next u ∧ u.regs = s.regs) ∧
    ∃ t u, exec (.dec m) s = .next t ∧ exec (.inc m) t = .next u ∧ u.regs = s.regs

/-- LOADR: its two exceptions, and its loads, which read every address before any register is written
(40_load_incdec.md R104). That a set high nibble raises is a choice, the resolution of 90_conflicts.md C3 (log 16). -/
def Obligations.LoadrLoadsThroughRegistersOrRaises : Prop :=
  ∀ (d : Mask) (src : Byte),
    (∀ (om : OpcodeMap) (rest : List Byte),
      decodeWith om ((om.toOpcode .loadr ++ d : BitVec (4 + 4)) :: src :: rest) = .ok (.loadr d src, rest)) ∧
    ∀ s : State,
      (highNibble src ≠ 0 ∨ popcount (lowNibble src) ≠ popcount d →
        exec (.loadr d src) s = .next { s with flags := s.flags ||| 0x03, pc := s.pc + 2 }) ∧
      (highNibble src = 0 → popcount (lowNibble src) = popcount d →
        ∃ f : RegFile,
          exec (.loadr d src) s = .next { s with pc := s.pc + 2, regs := f } ∧
          (∀ (k : Nat) (p q : Reg), (select (lowNibble src))[k]? = some p → (select d)[k]? = some q →
            f.get q = memRead s (s.regs.get p)) ∧
          ∀ r, r ∉ select d → f.get r = s.regs.get r)

/-! ## ADD, SUB, MUL, DIV, AND, OR, XOR, ROTR -/

/-- ADD (41_alu.md R132): the exact sum, narrowed to the destination's width. With d = 0 nothing is written: the spec's
decision D5 (log 12). -/
def Obligations.AddWritesTheSum : Prop :=
  ∀ (d : Mask) (src : Byte),
    (∀ (om : OpcodeMap) (rest : List Byte),
      decodeWith om ((om.toOpcode .add ++ d : BitVec (4 + 4)) :: src :: rest) = .ok (.add d src, rest)) ∧
    ∀ s : State,
      (∀ p q : Reg, sourcePair src = some (p, q) → ∃ f : RegFile,
        exec (.add d src) s = .next { s with pc := s.pc + 2, regs := f } ∧
        pack f (select d) = ((s.regs.get p).toNat + (s.regs.get q).toNat) % 2 ^ (8 * popcount d) ∧
        ∀ r, r ∉ select d → f.get r = s.regs.get r) ∧
      (sourcePair src = none →
        exec (.add d src) s = .next { s with flags := s.flags ||| 0x03, pc := s.pc + 2 } ∧
        exceptionCause (.add d src) s = some .badSourceMask)

/-- SUB (41_alu.md R133): the exact difference, the lower-numbered register the minuend, wrapping at the destination's
width. With d = 0 nothing is written: the spec's decision D5 (log 12). -/
def Obligations.SubWritesTheDifference : Prop :=
  ∀ (d : Mask) (src : Byte),
    (∀ (om : OpcodeMap) (rest : List Byte),
      decodeWith om ((om.toOpcode .sub ++ d : BitVec (4 + 4)) :: src :: rest) = .ok (.sub d src, rest)) ∧
    ∀ s : State,
      (∀ p q : Reg, sourcePair src = some (p, q) → ∃ f : RegFile,
        exec (.sub d src) s = .next { s with pc := s.pc + 2, regs := f } ∧
        (pack f (select d) : Int) =
          (((s.regs.get p).toNat : Int) - ((s.regs.get q).toNat : Int)) % 2 ^ (8 * popcount d) ∧
        ∀ r, r ∉ select d → f.get r = s.regs.get r) ∧
      (sourcePair src = none →
        exec (.sub d src) s = .next { s with flags := s.flags ||| 0x03, pc := s.pc + 2 } ∧
        exceptionCause (.sub d src) s = some .badSourceMask)

/-- MUL (41_alu.md R134): the exact product, narrowed to the destination's width. With d = 0 nothing is written: the spec's
decision D5 (log 12). -/
def Obligations.MulWritesTheProduct : Prop :=
  ∀ (d : Mask) (src : Byte),
    (∀ (om : OpcodeMap) (rest : List Byte),
      decodeWith om ((om.toOpcode .mul ++ d : BitVec (4 + 4)) :: src :: rest) = .ok (.mul d src, rest)) ∧
    ∀ s : State,
      (∀ p q : Reg, sourcePair src = some (p, q) → ∃ f : RegFile,
        exec (.mul d src) s = .next { s with pc := s.pc + 2, regs := f } ∧
        pack f (select d) = ((s.regs.get p).toNat * (s.regs.get q).toNat) % 2 ^ (8 * popcount d) ∧
        ∀ r, r ∉ select d → f.get r = s.regs.get r) ∧
      (sourcePair src = none →
        exec (.mul d src) s = .next { s with flags := s.flags ||| 0x03, pc := s.pc + 2 } ∧
        exceptionCause (.mul d src) s = some .badSourceMask)

/-- DIV (41_alu.md R135): the unsigned quotient, the higher-numbered register the divisor; the mask check comes before
the zero check. The rounding is the spec's decision D24 (log 23), an empty destination its decision D5 (log 12). -/
def Obligations.DivWritesTheQuotientOrRaises : Prop :=
  ∀ (d : Mask) (src : Byte),
    (∀ (om : OpcodeMap) (rest : List Byte),
      decodeWith om ((om.toOpcode .div ++ d : BitVec (4 + 4)) :: src :: rest) = .ok (.div d src, rest)) ∧
    ∀ s : State,
      (∀ p q : Reg, sourcePair src = some (p, q) → s.regs.get q ≠ 0 → ∃ f : RegFile,
        exec (.div d src) s = .next { s with pc := s.pc + 2, regs := f } ∧
        pack f (select d) = ((s.regs.get p).toNat / (s.regs.get q).toNat) % 2 ^ (8 * popcount d) ∧
        ∀ r, r ∉ select d → f.get r = s.regs.get r) ∧
      (∀ p q : Reg, sourcePair src = some (p, q) → s.regs.get q = 0 →
        exec (.div d src) s = .next { s with flags := s.flags ||| 0x03, pc := s.pc + 2 } ∧
        exceptionCause (.div d src) s = some .divByZero) ∧
      (sourcePair src = none →
        exec (.div d src) s = .next { s with flags := s.flags ||| 0x03, pc := s.pc + 2 } ∧
        exceptionCause (.div d src) s = some .badSourceMask)

/-- AND (41_alu.md R137): the bitwise result in every destination register. -/
def Obligations.AndBroadcastsItsResult : Prop :=
  ∀ (d : Mask) (src : Byte),
    (∀ (om : OpcodeMap) (rest : List Byte),
      decodeWith om ((om.toOpcode .and ++ d : BitVec (4 + 4)) :: src :: rest) = .ok (.and d src, rest)) ∧
    ∀ s : State,
      (∀ p q : Reg, sourcePair src = some (p, q) → ∃ f : RegFile,
        exec (.and d src) s = .next { s with pc := s.pc + 2, regs := f } ∧
        (∀ r, r ∈ select d → ∀ j : Nat,
          (f.get r).getLsbD j = ((s.regs.get p).getLsbD j && (s.regs.get q).getLsbD j)) ∧
        ∀ r, r ∉ select d → f.get r = s.regs.get r) ∧
      (sourcePair src = none →
        exec (.and d src) s = .next { s with flags := s.flags ||| 0x03, pc := s.pc + 2 } ∧
        exceptionCause (.and d src) s = some .badSourceMask)

/-- OR (41_alu.md R138). -/
def Obligations.OrBroadcastsItsResult : Prop :=
  ∀ (d : Mask) (src : Byte),
    (∀ (om : OpcodeMap) (rest : List Byte),
      decodeWith om ((om.toOpcode .or ++ d : BitVec (4 + 4)) :: src :: rest) = .ok (.or d src, rest)) ∧
    ∀ s : State,
      (∀ p q : Reg, sourcePair src = some (p, q) → ∃ f : RegFile,
        exec (.or d src) s = .next { s with pc := s.pc + 2, regs := f } ∧
        (∀ r, r ∈ select d → ∀ j : Nat,
          (f.get r).getLsbD j = ((s.regs.get p).getLsbD j || (s.regs.get q).getLsbD j)) ∧
        ∀ r, r ∉ select d → f.get r = s.regs.get r) ∧
      (sourcePair src = none →
        exec (.or d src) s = .next { s with flags := s.flags ||| 0x03, pc := s.pc + 2 } ∧
        exceptionCause (.or d src) s = some .badSourceMask)

/-- XOR (41_alu.md R139). -/
def Obligations.XorBroadcastsItsResult : Prop :=
  ∀ (d : Mask) (src : Byte),
    (∀ (om : OpcodeMap) (rest : List Byte),
      decodeWith om ((om.toOpcode .xor ++ d : BitVec (4 + 4)) :: src :: rest) = .ok (.xor d src, rest)) ∧
    ∀ s : State,
      (∀ p q : Reg, sourcePair src = some (p, q) → ∃ f : RegFile,
        exec (.xor d src) s = .next { s with pc := s.pc + 2, regs := f } ∧
        (∀ r, r ∈ select d → ∀ j : Nat,
          (f.get r).getLsbD j = ((s.regs.get p).getLsbD j ^^ (s.regs.get q).getLsbD j)) ∧
        ∀ r, r ∉ select d → f.get r = s.regs.get r) ∧
      (sourcePair src = none →
        exec (.xor d src) s = .next { s with flags := s.flags ||| 0x03, pc := s.pc + 2 } ∧
        exceptionCause (.xor d src) s = some .badSourceMask)

/-- ROTR (41_alu.md R140). -/
def Obligations.RotrMovesValuesAlongTheMask : Prop :=
  ∀ m : Mask,
    (∀ (om : OpcodeMap) (rest : List Byte),
      decodeWith om ((om.toOpcode .rotr ++ m : BitVec (4 + 4)) :: rest) = .ok (.rotr m, rest)) ∧
    ∀ s : State,
      (popcount m < 2 → exec (.rotr m) s = .next { s with pc := s.pc + 1 }) ∧
      (2 ≤ popcount m → ∃ f : RegFile,
        exec (.rotr m) s = .next { s with pc := s.pc + 1, regs := f } ∧
        (∀ first last : Reg, (select m)[0]? = some first → (select m)[popcount m - 1]? = some last →
          f.get first = s.regs.get last) ∧
        (∀ (k : Nat) (p q : Reg), (select m)[k]? = some p → (select m)[k + 1]? = some q → f.get q = s.regs.get p) ∧
        ∀ r, r ∉ select m → f.get r = s.regs.get r)

/-- As many rotations as registers selected restore every register (41_alu.md R140, derived there). -/
def Obligations.RotrCycleRestoresEveryRegister : Prop :=
  ∀ (m : Mask) (s : State), ∃ g : State → State,
    (∀ u, exec (.rotr m) u = .next (g u)) ∧ (g^[popcount m] s).regs = s.regs

/-! ## JMPNEQ, JMPEQ -/

/-- JMPNEQ (42_branch.md R171): the target on no register, on one that is not 0, or on several that are not all equal to
the first; else the next instruction. The polarity with one register is a choice, the source's authoritative one and not a
verified intent (90_conflicts.md C6, log 15). -/
def Obligations.JmpneqJumpsWhenNotEqual : Prop :=
  ∀ (m : Mask) (target : Byte),
    (∀ (om : OpcodeMap) (rest : List Byte),
      decodeWith om ((om.toOpcode .jmpneq ++ m : BitVec (4 + 4)) :: target :: rest) = .ok (.jmpneq m target, rest)) ∧
    ∀ s : State,
      (select m = [] → exec (.jmpneq m target) s = .next { s with pc := target }) ∧
      (∀ r, select m = [r] → s.regs.get r ≠ 0 → exec (.jmpneq m target) s = .next { s with pc := target }) ∧
      (∀ r, select m = [r] → s.regs.get r = 0 → exec (.jmpneq m target) s = .next { s with pc := s.pc + 2 }) ∧
      (∀ first rs, select m = first :: rs → rs ≠ [] → (∃ r ∈ rs, s.regs.get r ≠ s.regs.get first) →
        exec (.jmpneq m target) s = .next { s with pc := target }) ∧
      (∀ first rs, select m = first :: rs → rs ≠ [] → (∀ r ∈ rs, s.regs.get r = s.regs.get first) →
        exec (.jmpneq m target) s = .next { s with pc := s.pc + 2 })

/-- JMPEQ (42_branch.md R172): the target on no register, on one that is 0, or on several all equal to the first; else the
next instruction. The polarity with one register is a choice, the source's authoritative one and not a verified intent
(90_conflicts.md C6, log 15). -/
def Obligations.JmpeqJumpsWhenEqual : Prop :=
  ∀ (m : Mask) (target : Byte),
    (∀ (om : OpcodeMap) (rest : List Byte),
      decodeWith om ((om.toOpcode .jmpeq ++ m : BitVec (4 + 4)) :: target :: rest) = .ok (.jmpeq m target, rest)) ∧
    ∀ s : State,
      (select m = [] → exec (.jmpeq m target) s = .next { s with pc := target }) ∧
      (∀ r, select m = [r] → s.regs.get r = 0 → exec (.jmpeq m target) s = .next { s with pc := target }) ∧
      (∀ r, select m = [r] → s.regs.get r ≠ 0 → exec (.jmpeq m target) s = .next { s with pc := s.pc + 2 }) ∧
      (∀ first rs, select m = first :: rs → rs ≠ [] → (∀ r ∈ rs, s.regs.get r = s.regs.get first) →
        exec (.jmpeq m target) s = .next { s with pc := target }) ∧
      (∀ first rs, select m = first :: rs → rs ≠ [] → (∃ r ∈ rs, s.regs.get r ≠ s.regs.get first) →
        exec (.jmpeq m target) s = .next { s with pc := s.pc + 2 })

/-- With the same non-empty mask and the same values exactly one of the two jumps is taken; with the empty mask both are
(42_branch.md R172). -/
def Obligations.ExactlyOneOfTheTwoJumpsIsTaken : Prop :=
  ∀ (m : Mask) (target : Byte) (s : State),
    (m = 0 → exec (.jmpneq m target) s = .next { s with pc := target } ∧
      exec (.jmpeq m target) s = .next { s with pc := target }) ∧
    (m ≠ 0 →
      (exec (.jmpneq m target) s = .next { s with pc := target } ∧
        exec (.jmpeq m target) s = .next { s with pc := s.pc + 2 }) ∨
      (exec (.jmpneq m target) s = .next { s with pc := s.pc + 2 } ∧
        exec (.jmpeq m target) s = .next { s with pc := target }))

/-! ## STOR -/

/-- STOR (43_store.md R190): the k-th selected register goes to base + k modulo 256, every other byte stays.
The wrap of the address is the spec's decision D4 (log 11). The premise is the invariant's memory clause. -/
def Obligations.StorWritesTheSelectedRegisters : Prop :=
  ∀ (m : Mask) (base : Byte),
    (∀ (om : OpcodeMap) (rest : List Byte),
      decodeWith om ((om.toOpcode .stor ++ m : BitVec (4 + 4)) :: base :: rest) = .ok (.stor m base, rest)) ∧
    ∀ s : State, s.mem.wf → ∃ t : State,
      exec (.stor m base) s = .next t ∧ t = { s with pc := s.pc + 2, mem := t.mem } ∧
      (∀ (k : Nat) (r : Reg), (select m)[k]? = some r → memRead t (base + BitVec.ofNat 8 k) = s.regs.get r) ∧
      ∀ b : Byte, (∀ k, k < popcount m → b ≠ base + BitVec.ofNat 8 k) → memRead t b = memRead s b

/-- A stored byte is what the very next instruction fetch reads, and a STOR that overwrites its own bytes still does the
whole of its own effect (20_memory.md R53, the spec's decision D14, log 22), under every opcode map. -/
def Obligations.StoredByteIsFetchedByTheNextStep : Prop :=
  ∀ (om : OpcodeMap) (m : Mask) (base : Byte) (s : State) (k : Nat) (r : Reg),
    s.mem.wf → haltFlag s.flags = false → fetchInstr om s = .stor m base →
    (select m)[k]? = some r → s.pc + 2 = base + BitVec.ofNat 8 k →
    ∃ t, stepWith om s = .next t ∧ (fetch8 t).1 = s.regs.get r ∧
      fetchInstr om t =
        decodeInstr om (s.regs.get r) (fun j => memRead t (s.pc + 3 + BitVec.ofNat 8 j))

/-! ## ITR -/

/-- ITR through a slot bound to a conventional callback: it completes, changes nothing but pc, and appends its event
(44_interrupt.md R200, R202; that the two callbacks change no state is the spec's reading, log 9). The premise is the
invariant's flags clause. -/
def Obligations.ItrRunsTheConventionalCallbacks : Prop :=
  ∀ (k : Nibble) (s : State), flagsLegal s.flags = true →
    (slot s.itab k = some .dump →
      exec (.itr k) s = .next { s with pc := s.pc + 1,
                                       output := s.output ++ [.dump s.flags (s.pc + 1) s.regs s.mem] }) ∧
    (slot s.itab k = some .emit →
      exec (.itr k) s = .next { s with pc := s.pc + 1, output := s.output ++ [.emit (s.regs.get .r1)] })

/-- ITR to an empty slot is refused where the host defines no behaviour for one, the spec's default, decision D8 (log 6);
where the host defines one, ITR is never refused as unbound: it takes that callback's
answer on the state with pc at ia + 1, as for a bound slot (44_interrupt.md R203). -/
def Obligations.ItrToAnEmptySlotIsRefused : Prop :=
  ∀ (k : Nibble) (s : State), slot s.itab k = none →
    (s.unboundItr = .refuse → exec (.itr k) s = .refused .unboundInterrupt) ∧
    ∀ id : Nat, s.unboundItr = .callback id →
      exec (.itr k) s ≠ .refused .unboundInterrupt ∧
      exec (.itr k) s = acceptAnswer { s with pc := s.pc + 1 }
        (Config.callback id k s.draws (hostView { s with pc := s.pc + 1 }))

/-- ITR through a slot bound to a host callback, or to an empty slot for which the host supplies one, for EVERY answer the free value `Config.callback` can give: re-entry and
an exception bit without the halt bit are refused, and any other answer is the next state, with its output appended
(44_interrupt.md R200, R201, R203, R204; logs 4, 6). The callback is given pc = ia + 1. -/
def Obligations.ItrTakesWhateverTheHostAnswers : Prop :=
  ∀ (k : Nibble) (id : Nat) (s : State),
    slot s.itab k = some (.host id) ∨ (slot s.itab k = none ∧ s.unboundItr = .callback id) →
    match Config.callback id k s.draws (hostView { s with pc := s.pc + 1 }) with
    | .reentered => exec (.itr k) s = .refused .reentrantRun
    | .returned v out =>
      (v.flags.getLsbD 1 = true ∧ v.flags.getLsbD 0 = false →
        exec (.itr k) s = .refused .exceptionWithoutHalt) ∧
      (¬ (v.flags.getLsbD 1 = true ∧ v.flags.getLsbD 0 = false) →
        ∃ t : State, exec (.itr k) s = .next t ∧ t.flags = v.flags ∧ t.pc = v.pc ∧ t.regs = v.regs ∧
          t.itab = v.itab ∧ t.mem.wf ∧ (∀ a : Byte, memRead t a = v.mem[a.toNat]'a.isLt) ∧
          t.output = s.output ++ out ∧ t.unboundItr = s.unboundItr ∧
          t.draws = s.draws + 1)
end

