-- ==== Sys2Proof/Laws/Mask.lean ====
section
/-! SUPPORT. The mask resolver: what a mask selects. -/

namespace Sys2Proof

theorem mem_select (m : Mask) (r : Reg) : r ∈ select m ↔ m.getLsbD r.position = true := by
  cases r <;> simp [select]

theorem select_nodup (m : Mask) : (select m).Nodup := List.Nodup.filter _ (by decide)

theorem length_select (m : Mask) : (select m).length = popcount m := by
  revert m; decide

theorem select_zero : select 0 = [] := by decide

theorem select_eq_nil {m : Mask} : select m = [] ↔ m = 0 := by
  revert m; decide

theorem popcount_le_four (m : Mask) : popcount m ≤ 4 := by revert m; decide

theorem popcount_eq_zero {m : Mask} : popcount m = 0 ↔ m = 0 := by revert m; decide

end Sys2Proof
end

