-- ==== Sys2Proof/Laws/State.lean ====
section
/-! SUPPORT. What each named update of the state leaves in each field, so that no proof unfolds a record update. -/

namespace Sys2Proof.Machine

variable (s : State)

section consume
variable (n : Nat)
@[simp] theorem consume_pc : (consume n s).pc = s.pc + BitVec.ofNat 8 n := rfl
@[simp] theorem consume_flags : (consume n s).flags = s.flags := rfl
@[simp] theorem consume_regs : (consume n s).regs = s.regs := rfl
@[simp] theorem consume_mem : (consume n s).mem = s.mem := rfl
@[simp] theorem consume_itab : (consume n s).itab = s.itab := rfl
@[simp] theorem consume_unboundItr : (consume n s).unboundItr = s.unboundItr := rfl
@[simp] theorem consume_output : (consume n s).output = s.output := rfl
@[simp] theorem consume_draws : (consume n s).draws = s.draws := rfl
end consume

section jumpTo
variable (t : Byte)
@[simp] theorem jumpTo_pc : (jumpTo t s).pc = t := rfl
@[simp] theorem jumpTo_flags : (jumpTo t s).flags = s.flags := rfl
@[simp] theorem jumpTo_regs : (jumpTo t s).regs = s.regs := rfl
@[simp] theorem jumpTo_mem : (jumpTo t s).mem = s.mem := rfl
@[simp] theorem jumpTo_itab : (jumpTo t s).itab = s.itab := rfl
@[simp] theorem jumpTo_unboundItr : (jumpTo t s).unboundItr = s.unboundItr := rfl
@[simp] theorem jumpTo_output : (jumpTo t s).output = s.output := rfl
@[simp] theorem jumpTo_draws : (jumpTo t s).draws = s.draws := rfl
end jumpTo

section haltMachine
@[simp] theorem haltMachine_flags : (haltMachine s).flags = s.flags ||| 0x01 := rfl
@[simp] theorem haltMachine_pc : (haltMachine s).pc = s.pc := rfl
@[simp] theorem haltMachine_regs : (haltMachine s).regs = s.regs := rfl
@[simp] theorem haltMachine_mem : (haltMachine s).mem = s.mem := rfl
@[simp] theorem haltMachine_itab : (haltMachine s).itab = s.itab := rfl
@[simp] theorem haltMachine_unboundItr : (haltMachine s).unboundItr = s.unboundItr := rfl
@[simp] theorem haltMachine_output : (haltMachine s).output = s.output := rfl
@[simp] theorem haltMachine_draws : (haltMachine s).draws = s.draws := rfl
end haltMachine

section raiseException
variable (c : ExcCause)
@[simp] theorem raiseException_flags : (raiseException c s).flags = s.flags ||| 0x03 := rfl
@[simp] theorem raiseException_pc : (raiseException c s).pc = s.pc := rfl
@[simp] theorem raiseException_regs : (raiseException c s).regs = s.regs := rfl
@[simp] theorem raiseException_mem : (raiseException c s).mem = s.mem := rfl
@[simp] theorem raiseException_itab : (raiseException c s).itab = s.itab := rfl
@[simp] theorem raiseException_unboundItr : (raiseException c s).unboundItr = s.unboundItr := rfl
@[simp] theorem raiseException_output : (raiseException c s).output = s.output := rfl
@[simp] theorem raiseException_draws : (raiseException c s).draws = s.draws := rfl
end raiseException

section emitOutput
variable (out : List OutputEvent)
@[simp] theorem emitOutput_output : (emitOutput out s).output = s.output ++ out := rfl
@[simp] theorem emitOutput_flags : (emitOutput out s).flags = s.flags := rfl
@[simp] theorem emitOutput_pc : (emitOutput out s).pc = s.pc := rfl
@[simp] theorem emitOutput_regs : (emitOutput out s).regs = s.regs := rfl
@[simp] theorem emitOutput_mem : (emitOutput out s).mem = s.mem := rfl
@[simp] theorem emitOutput_itab : (emitOutput out s).itab = s.itab := rfl
@[simp] theorem emitOutput_unboundItr : (emitOutput out s).unboundItr = s.unboundItr := rfl
@[simp] theorem emitOutput_draws : (emitOutput out s).draws = s.draws := rfl
end emitOutput

section memWrite
variable (a v : Byte)
@[simp] theorem memWrite_mem : (memWrite s a v).mem = s.mem.write a.toNat v := rfl
@[simp] theorem memWrite_flags : (memWrite s a v).flags = s.flags := rfl
@[simp] theorem memWrite_pc : (memWrite s a v).pc = s.pc := rfl
@[simp] theorem memWrite_regs : (memWrite s a v).regs = s.regs := rfl
@[simp] theorem memWrite_itab : (memWrite s a v).itab = s.itab := rfl
@[simp] theorem memWrite_unboundItr : (memWrite s a v).unboundItr = s.unboundItr := rfl
@[simp] theorem memWrite_output : (memWrite s a v).output = s.output := rfl
@[simp] theorem memWrite_draws : (memWrite s a v).draws = s.draws := rfl
end memWrite

section afterCallback
variable (v : HostView) (out : List OutputEvent)
@[simp] theorem afterCallback_flags : (afterCallback s v out).flags = v.flags := rfl
@[simp] theorem afterCallback_pc : (afterCallback s v out).pc = v.pc := rfl
@[simp] theorem afterCallback_regs : (afterCallback s v out).regs = v.regs := rfl
@[simp] theorem afterCallback_mem : (afterCallback s v out).mem = Memory.ofBytes v.mem := rfl
@[simp] theorem afterCallback_itab : (afterCallback s v out).itab = v.itab := rfl
@[simp] theorem afterCallback_unboundItr : (afterCallback s v out).unboundItr = s.unboundItr := rfl
@[simp] theorem afterCallback_output : (afterCallback s v out).output = s.output ++ out := rfl
@[simp] theorem afterCallback_draws : (afterCallback s v out).draws = s.draws + 1 := rfl
end afterCallback

/-! A read of memory looks at the memory alone. -/
@[simp] theorem memRead_consume (n : Nat) (a : Byte) : memRead (consume n s) a = memRead s a := rfl
@[simp] theorem memRead_jumpTo (t a : Byte) : memRead (jumpTo t s) a = memRead s a := rfl
@[simp] theorem memRead_haltMachine (a : Byte) : memRead (haltMachine s) a = memRead s a := rfl
@[simp] theorem memRead_raiseException (c : ExcCause) (a : Byte) :
    memRead (raiseException c s) a = memRead s a := rfl
@[simp] theorem memRead_emitOutput (out : List OutputEvent) (a : Byte) :
    memRead (emitOutput out s) a = memRead s a := rfl

end Sys2Proof.Machine
end

