-- ==== Sys2Proof/Laws/Registers.lean ====
section
/-! SUPPORT. The register file: reading after writing. -/

namespace Sys2Proof.Machine

@[simp] theorem RegFile.get_set_same (f : RegFile) (r : Reg) (v : Byte) : (f.set r v).get r = v := by
  cases r <;> rfl

theorem RegFile.get_set_other (f : RegFile) {r q : Reg} (v : Byte) (h : q ≠ r) : (f.set r v).get q = f.get q := by
  cases r <;> cases q <;> first | rfl | exact absurd rfl h

/-- Two register files that read alike are equal. -/
theorem RegFile.ext_get {f g : RegFile} (h : ∀ r, f.get r = g.get r) : f = g := by
  cases f; cases g
  have h1 := h .r1; have h2 := h .r2; have h3 := h .r3; have h4 := h .r4
  simp only [RegFile.get] at h1 h2 h3 h4
  subst h1 h2 h3 h4; rfl

/-- Writing a list of registers leaves every register outside it alone. -/
theorem RegFile.setAll_other (L : List Reg) (vs : List Byte) (f : RegFile) {q : Reg} (h : q ∉ L) :
    (f.setAll L vs).get q = f.get q := by
  induction L generalizing f vs with
  | nil => rfl
  | cons r rs ih =>
    cases vs with
    | nil => rfl
    | cons v vs =>
      rw [List.mem_cons, not_or] at h
      rw [RegFile.setAll, ih vs (f.set r v) h.2, RegFile.get_set_other f v h.1]

/-- The k-th register of a list without repeats holds the k-th value written. -/
theorem RegFile.setAll_at {L : List Reg} (hL : L.Nodup) {vs : List Byte} (f : RegFile) {k : Nat} {q : Reg} {v : Byte}
    (hq : L[k]? = some q) (hv : vs[k]? = some v) : (f.setAll L vs).get q = v := by
  induction L generalizing f vs k with
  | nil => simp at hq
  | cons r rs ih =>
    cases vs with
    | nil => simp at hv
    | cons w ws =>
      rw [List.nodup_cons] at hL
      cases k with
      | zero =>
        simp only [List.getElem?_cons_zero, Option.some.injEq] at hq hv
        subst hq hv
        rw [RegFile.setAll, RegFile.setAll_other rs ws _ hL.1, RegFile.get_set_same]
      | succ k =>
        simp only [List.getElem?_cons_succ] at hq hv
        exact ih hL.2 (f.set r w) hq hv

/-- Reading back a list of registers that as many values were written to. -/
theorem values_setAll {L : List Reg} (hL : L.Nodup) {vs : List Byte} (hlen : vs.length = L.length) (f : RegFile) :
    values (f.setAll L vs) L = vs := by
  refine List.ext_getElem? fun k => ?_
  by_cases hk : k < L.length
  · have hv : vs[k]? = some (vs[k]'(hlen ▸ hk)) := List.getElem?_eq_getElem _
    rw [values, List.getElem?_map, List.getElem?_eq_getElem hk, hv]
    simp only [Option.map_some, Option.some.injEq]
    exact RegFile.setAll_at hL f (List.getElem?_eq_getElem hk) hv
  · rw [List.getElem?_eq_none (by simp [values]; omega), List.getElem?_eq_none (by omega)]

end Sys2Proof.Machine
end

