-- ==== Sys2Proof/Laws/Codec.lean ====
section
/-! SUPPORT. The composite integer codec: what pack reads and unpack writes. -/

namespace Sys2Proof.Machine

theorem pack_lt (f : RegFile) (L : List Reg) : pack f L < 256 ^ L.length := by
  induction L with
  | nil => simp [pack]
  | cons r rs ih =>
    have hr := (f.get r).isLt
    rw [pack, List.length_cons, pow_succ]
    omega

/-- pack looks only at the registers of its list. -/
theorem pack_congr {f g : RegFile} {L : List Reg} (h : ∀ r ∈ L, f.get r = g.get r) : pack f L = pack g L := by
  induction L with
  | nil => rfl
  | cons r rs ih =>
    rw [List.forall_mem_cons] at h
    rw [pack, pack, h.1, ih h.2]

/-- Writing digits leaves every register outside the list alone. -/
theorem setDigits_other (f : RegFile) (L : List Reg) (w : Nat) {q : Reg} (h : q ∉ L) :
    (setDigits f L w).get q = f.get q := by
  induction L generalizing f w with
  | nil => rfl
  | cons r rs ih =>
    rw [List.mem_cons, not_or] at h
    rw [setDigits, ih _ _ h.2, RegFile.get_set_other f _ h.1]

/-- The k-th register of a list without repeats holds the k-th digit written. -/
theorem setDigits_at {L : List Reg} (hL : L.Nodup) (f : RegFile) (w : Nat) {k : Nat} {q : Reg} (hq : L[k]? = some q) :
    (setDigits f L w).get q = BitVec.ofNat 8 (w / 256 ^ k) := by
  induction L generalizing f w k with
  | nil => simp at hq
  | cons r rs ih =>
    rw [List.nodup_cons] at hL
    cases k with
    | zero =>
      simp only [List.getElem?_cons_zero, Option.some.injEq] at hq
      subst hq
      rw [setDigits, setDigits_other _ _ _ hL.1, RegFile.get_set_same, pow_zero, Nat.div_one]
    | succ k =>
      simp only [List.getElem?_cons_succ] at hq
      rw [setDigits, ih hL.2 _ _ hq, Nat.div_div_eq_div_mul, pow_succ, mul_comm]

/-- Packing what was written gives the number back, narrowed to the width of the list. -/
theorem pack_setDigits {L : List Reg} (hL : L.Nodup) (f : RegFile) (w : Nat) :
    pack (setDigits f L w) L = w % 256 ^ L.length := by
  induction L generalizing f w with
  | nil => simp [pack, Nat.mod_one]
  | cons r rs ih =>
    rw [List.nodup_cons] at hL
    rw [setDigits, pack, ih hL.2, setDigits_other _ _ _ hL.1, RegFile.get_set_same, BitVec.toNat_ofNat,
      List.length_cons, pow_succ' 256 rs.length]
    exact Nat.mod_mul.symm

theorem two_pow_eight_mul (n : Nat) : (2 : Nat) ^ (8 * n) = 256 ^ n := by rw [pow_mul]; norm_num

/-- What unpack leaves outside its list. -/
theorem unpack_other (v : Int) {L : List Reg} (f : RegFile) {q : Reg} (h : q ∉ L) :
    (unpack v L f).get q = f.get q := setDigits_other f L _ h

/-- What unpack writes, as one number. -/
theorem pack_unpack {L : List Reg} (hL : L.Nodup) (v : Int) (f : RegFile) :
    (pack (unpack v L f) L : Int) = v % (2 ^ (8 * L.length) : Int) := by
  have hpos : (0 : Int) < ((2 ^ (8 * L.length) : Nat) : Int) := by positivity
  rw [unpack, pack_setDigits hL, ← two_pow_eight_mul]
  have h1 : (v % ((2 ^ (8 * L.length) : Nat) : Int)).toNat < 2 ^ (8 * L.length) := by
    have := Int.emod_lt_of_pos v hpos
    have := Int.emod_nonneg v hpos.ne'
    omega
  rw [Nat.mod_eq_of_lt h1, Int.toNat_of_nonneg (Int.emod_nonneg v hpos.ne')]
  norm_num

/-- Two register files that pack alike over a list agree on it. -/
theorem get_of_pack_eq {f g : RegFile} {L : List Reg} (h : pack f L = pack g L) : ∀ r ∈ L, f.get r = g.get r := by
  induction L with
  | nil => simp
  | cons r rs ih =>
    rw [pack, pack] at h
    have hf := (f.get r).isLt
    have hg := (g.get r).isLt
    rw [List.forall_mem_cons]
    exact ⟨BitVec.eq_of_toNat_eq (by omega), ih (by omega)⟩

/-- INC and DEC: what they leave in the composite, and outside it. -/
theorem addComposite_spec (delta : Int) (m : Mask) (f : RegFile) :
    (pack (addComposite delta m f) (select m) : Int)
        = ((pack f (select m) : Int) + delta) % (2 ^ (8 * popcount m) : Int)
      ∧ ∀ r, r ∉ select m → (addComposite delta m f).get r = f.get r := by
  rw [addComposite, ← length_select]
  cases h : select m with
  | nil => simp [pack]
  | cons r rs =>
    have hL : (r :: rs).Nodup := h ▸ select_nodup m
    exact ⟨pack_unpack hL _ f, fun q hq => unpack_other _ f hq⟩

end Sys2Proof.Machine
end

