-- ==== Sys2Proof/Laws/Decode.lean ====
section
/-! SUPPORT. The instruction byte and the decoder, for any opcode map. -/

namespace Sys2Proof

@[simp] theorem highNibble_append (x y : Nibble) : highNibble (x ++ y : BitVec (4 + 4)) = x := by
  revert x y; decide

@[simp] theorem lowNibble_append (x y : Nibble) : lowNibble (x ++ y : BitVec (4 + 4)) = y := by
  revert x y; decide

theorem nibbles_append (b : Byte) : (highNibble b ++ lowNibble b : BitVec (4 + 4)) = b := by
  revert b; decide

@[simp] theorem highNibble_instrByte (om : OpcodeMap) (n : Mnemonic) (arg : Nibble) :
    highNibble (instrByte om n arg) = om.toOpcode n := highNibble_append _ _

@[simp] theorem lowNibble_instrByte (om : OpcodeMap) (n : Mnemonic) (arg : Nibble) :
    lowNibble (instrByte om n arg) = arg := lowNibble_append _ _

/-- An instruction byte is made of the mnemonic and the argument read from it. -/
theorem instrByte_eta (om : OpcodeMap) {b : Byte} {n : Mnemonic} (h : om.ofOpcode (highNibble b) = n) :
    instrByte om n (lowNibble b) = b := by
  rw [instrByte, ← h, om.to_of]; exact nibbles_append b

theorem ofOpcode_instrByte (om : OpcodeMap) (n : Mnemonic) (arg : Nibble) :
    om.ofOpcode (highNibble (instrByte om n arg)) = n := by rw [highNibble_instrByte, om.of_to]

/-- LOADI is opcode 0 in every map. -/
theorem toOpcode_loadi (om : OpcodeMap) : om.toOpcode .loadi = 0 := by
  rw [← om.loadi_zero, om.to_of]

/-- The length of what is decoded is found from the first byte alone. -/
theorem length_decodeInstr (om : OpcodeMap) (b : Byte) (t : Nat → Byte) :
    (decodeInstr om b t).length = 1 + trailingCount om b := by
  unfold decodeInstr trailingCount
  by_cases h : lowNibble b = 0
  · cases om.ofOpcode (highNibble b) <;> simp only [h, if_true, Instr.length]
    decide
  · cases om.ofOpcode (highNibble b) <;> simp only [h, if_false, Instr.length]

/-- What is decoded is well formed. -/
theorem wellFormed_decodeInstr (om : OpcodeMap) (b : Byte) (t : Nat → Byte) :
    (decodeInstr om b t).wellFormed = true := by
  unfold decodeInstr
  by_cases h : lowNibble b = 0
  · cases om.ofOpcode (highNibble b) <;> simp only [h, if_true, Instr.wellFormed]
  · cases om.ofOpcode (highNibble b) <;> simp only [h, if_false, Instr.wellFormed]
    simpa using h

/-- Decoding only reads the trailing bytes the instruction has. -/
theorem decodeInstr_congr (om : OpcodeMap) (b : Byte) {t u : Nat → Byte}
    (h : ∀ k < trailingCount om b, t k = u k) : decodeInstr om b t = decodeInstr om b u := by
  unfold decodeInstr
  unfold trailingCount at h
  cases hn : om.ofOpcode (highNibble b) <;> simp only [hn] at h ⊢ <;> try rw [h 0 (by decide)]
  split
  · rfl
  · congr 1
    exact List.map_congr_left fun k hk => h k (List.mem_range.1 hk)

/-- Encoding what was decoded gives the bytes back. -/
theorem encodeWith_decodeInstr (om : OpcodeMap) (b : Byte) (t : Nat → Byte) :
    encodeWith om (decodeInstr om b t) = b :: (List.range (trailingCount om b)).map t := by
  unfold decodeInstr trailingCount
  by_cases h : lowNibble b = 0
  · cases hn : om.ofOpcode (highNibble b) <;> have hb := instrByte_eta om hn <;> rw [h] at hb <;>
      simp only [h, if_true, encodeWith, hb, List.range_zero, List.map_nil, List.range_one, List.map_cons]
    rfl
  · cases hn : om.ofOpcode (highNibble b) <;> have hb := instrByte_eta om hn <;>
      simp only [h, if_false, encodeWith, hb, List.range_zero, List.map_nil, List.range_one, List.map_cons]

/-- The one case of `decodeWith` that answers. -/
theorem decodeWith_cons_ok {om : OpcodeMap} {b : Byte} {bs : List Byte} (h : trailingCount om b ≤ bs.length) :
    decodeWith om (b :: bs) = .ok (decodeInstr om b fun k => bs.getD k 0, bs.drop (trailingCount om b)) := by
  rw [decodeWith, if_neg (by omega)]

/-- If the decoder answers, the list has a first byte and all its trailing bytes. -/
theorem decodeWith_inv {om : OpcodeMap} {bs : List Byte} {i : Instr} {rest : List Byte}
    (h : decodeWith om bs = .ok (i, rest)) :
    ∃ b t, bs = b :: t ∧ trailingCount om b ≤ t.length ∧ i = decodeInstr om b (fun k => t.getD k 0) ∧
      rest = t.drop (trailingCount om b) := by
  cases bs with
  | nil => simp [decodeWith] at h
  | cons b t =>
    rw [decodeWith] at h
    split at h
    · simp at h
    · simp only [Except.ok.injEq, Prod.mk.injEq] at h
      exact ⟨b, t, rfl, by omega, h.1.symm, h.2.symm⟩

/-- Taking bytes by index is taking a prefix. -/
theorem map_getD_range {n : Nat} {bs : List Byte} (h : n ≤ bs.length) :
    (List.range n).map (fun k => bs.getD k 0) = bs.take n := by
  refine List.ext_getElem (by simp [h]) fun k h1 h2 => ?_
  simp only [List.length_map, List.length_range] at h1
  simp [List.getElem?_eq_getElem (show k < bs.length by omega)]

end Sys2Proof

namespace Sys2Proof.Machine

/-- Fetching n bytes reads them from pc on, modulo 256, and advances pc by n. -/
theorem fetchN_eq (n : Nat) (s : State) :
    fetchN n s = ((List.range n).map fun k => memRead s (s.pc + BitVec.ofNat 8 k), consume n s) := by
  induction n generalizing s with
  | zero => simp [fetchN, consume]
  | succ n ih =>
    have hadd : ∀ k, s.pc + 1 + BitVec.ofNat 8 k = s.pc + BitVec.ofNat 8 (k + 1) := fun k => by
      rw [BitVec.add_assoc, show (1 : Byte) + BitVec.ofNat 8 k = BitVec.ofNat 8 (k + 1) from by
        rw [BitVec.ofNat_add]; exact BitVec.add_comm _ _]
    rw [fetchN]
    simp only [fetch8, ih, Prod.mk.injEq]
    constructor
    · rw [List.range_succ_eq_map, List.map_cons, List.map_map, BitVec.add_zero]
      congr 1
      refine List.map_congr_left fun k _ => ?_
      simp only [Function.comp_apply, Nat.succ_eq_add_one, ← hadd]; rfl
    · simp only [consume, hadd]

/-- Decoding the bytes at pc gives the instruction the step fetches, whatever follows them. -/
theorem fetchInstr_of_decode {om : OpcodeMap} {s : State} {n : Nat} {i : Instr} {rest : List Byte}
    (h : decodeWith om (fetchN n s).1 = .ok (i, rest)) : fetchInstr om s = i := by
  obtain ⟨b, t, hbt, hlen, rfl, -⟩ := decodeWith_inv h
  rw [fetchN_eq] at hbt
  cases n with
  | zero => simp at hbt
  | succ n =>
    simp only [List.range_succ_eq_map, List.map_cons, List.map_map, BitVec.add_zero, List.cons.injEq] at hbt
    obtain ⟨rfl, rfl⟩ := hbt
    refine decodeInstr_congr om _ fun k hk => ?_
    simp only [List.length_map, List.length_range] at hlen
    simp [List.getElem?_range (show k < n by omega)]

end Sys2Proof.Machine
end

