-- ==== Sys2Proof/Laws/Memory.lean ====
section
/-! SUPPORT. Memory: reading after writing, and that every operation keeps the canonical form. -/

namespace Sys2Proof.Machine

namespace Memory

theorem wf_nil : wf [] := by decide

theorem wf_cons {c : Host.Cell} {m : Memory} :
    wf (c :: m) ↔ (∀ d ∈ m, c.1 < d.1) ∧ c.1 < 256 ∧ c.2 ≠ unlisted ∧ wf m := by
  simp only [wf, List.pairwise_cons, List.mem_cons, forall_eq_or_imp]
  tauto

/-- An address below every cell is unlisted. -/
theorem read_of_lt {m : Memory} {a : Nat} (h : ∀ c ∈ m, a < c.1) : read m a = unlisted := by
  induction m with
  | nil => rfl
  | cons c m ih =>
    rw [List.forall_mem_cons] at h
    rw [read, if_neg (by omega), ih h.2]

/-- A write leaves every other address alone. -/
theorem read_write_other (m : Memory) {a b : Nat} (v : Byte) (h : b ≠ a) : read (write m a v) b = read m b := by
  induction m with
  | nil =>
    rw [write]; split
    · rfl
    · exact if_neg (Ne.symm h)
  | cons c m ih =>
    obtain ⟨k, w⟩ := c
    rw [write]
    split
    · simp only [read, ih]
    · by_cases hk : k = a
      · subst hk
        simp only [if_true]
        split
        · rw [read, if_neg (Ne.symm h)]
        · rw [read, if_neg (Ne.symm h), read, if_neg (Ne.symm h)]
      · simp only [hk, if_false]
        split
        · rfl
        · rw [read, if_neg (Ne.symm h)]

/-- A read gives what was last written. -/
theorem read_write_same {m : Memory} (hm : wf m) (a : Nat) (v : Byte) : read (write m a v) a = v := by
  induction m with
  | nil =>
    rw [write]; split
    · simp_all [read]
    · simp [read]
  | cons c m ih =>
    obtain ⟨k, w⟩ := c
    obtain ⟨hlt, -, -, hm'⟩ := wf_cons.1 hm
    rw [write]
    split
    · rw [read, if_neg (by omega), ih hm']
    · by_cases hk : k = a
      · subst hk
        simp only [if_true]
        split
        · rw [read_of_lt hlt]; simp_all
        · simp [read]
      · simp only [hk, if_false]
        split
        · rw [read, if_neg hk, read_of_lt fun d hd => lt_trans (show a < k by omega) (hlt d hd)]; simp_all
        · simp [read]

/-- Every cell after a write is an old one or the one written. -/
theorem mem_write {m : Memory} {a : Nat} {v : Byte} {c : Host.Cell} (h : c ∈ write m a v) :
    c ∈ m ∨ (c = (a, v) ∧ v ≠ unlisted) := by
  induction m with
  | nil =>
    rw [write] at h
    split at h
    · simp at h
    · exact .inr ⟨by simpa using h, ‹_›⟩
  | cons d m ih =>
    obtain ⟨k, w⟩ := d
    rw [write] at h
    have htail : ∀ {c : Host.Cell}, c ∈ (if k = a then m else (k, w) :: m) → c ∈ (k, w) :: m := by
      intro c hc; split at hc
      · exact List.mem_cons_of_mem _ hc
      · exact hc
    split at h
    · rcases List.mem_cons.1 h with rfl | h
      · exact .inl List.mem_cons_self
      · exact (ih h).imp_left (List.mem_cons_of_mem _)
    · simp only at h
      split at h
      · exact .inl (htail h)
      · rcases List.mem_cons.1 h with rfl | h
        · exact .inr ⟨rfl, ‹_›⟩
        · exact .inl (htail h)

/-- A write keeps the canonical form. -/
theorem write_wf {m : Memory} (hm : wf m) {a : Nat} (ha : a < 256) (v : Byte) : wf (write m a v) := by
  induction m with
  | nil =>
    rw [write]; split
    · exact wf_nil
    · exact wf_cons.2 ⟨by simp, ha, ‹_›, wf_nil⟩
  | cons c m ih =>
    obtain ⟨k, w⟩ := c
    obtain ⟨hlt, hk, hw, hm'⟩ := wf_cons.1 hm
    rw [write]
    split
    · refine wf_cons.2 ⟨fun d hd => ?_, hk, hw, ih hm'⟩
      rcases mem_write hd with hd | ⟨rfl, -⟩
      · exact hlt d hd
      · assumption
    · have htail : wf (if k = a then m else (k, w) :: m) := by split <;> assumption
      have hge : ∀ d ∈ (if k = a then m else (k, w) :: m), a < d.1 := by
        intro d hd
        split at hd
        · subst_vars; exact hlt d hd
        · rcases List.mem_cons.1 hd with rfl | hd
          · simp only; omega
          · have := hlt d hd; simp only at this; omega
      simp only
      split
      · exact htail
      · exact wf_cons.2 ⟨hge, ha, ‹_›, htail⟩

/-- The memory built from 256 bytes is in canonical form. -/
theorem ofBytes_wf (bs : Vector Byte 256) : wf (ofBytes bs) := by
  refine ⟨List.Pairwise.filterMap _ ?_ (List.pairwise_lt_finRange 256), fun c hc => ?_⟩
  · intro a b hab c hc d hd
    split at hc <;> split at hd <;> simp_all
    subst hc hd
    simpa using hab
  · obtain ⟨a, -, ha⟩ := List.mem_filterMap.1 hc
    split at ha
    · simp at ha
    · rename_i hne
      simp only [Option.some.injEq] at ha
      subst ha
      exact ⟨a.isLt, hne⟩

/-- A listed cell is what its address reads as. -/
theorem read_of_mem {m : Memory} (hm : wf m) {c : Host.Cell} (hc : c ∈ m) : read m c.1 = c.2 := by
  induction m with
  | nil => simp at hc
  | cons d m ih =>
    obtain ⟨hlt, -, -, hm'⟩ := wf_cons.1 hm
    obtain ⟨k, w⟩ := d
    rcases List.mem_cons.1 hc with rfl | hc
    · simp [read]
    · have := hlt c hc
      rw [read, if_neg (by simp only at this; omega), ih hm' hc]

/-- An address no cell lists reads as unlisted. -/
theorem read_of_not_mem {m : Memory} {a : Nat} (h : ∀ c ∈ m, c.1 ≠ a) : read m a = unlisted := by
  induction m with
  | nil => rfl
  | cons c m ih =>
    obtain ⟨k, w⟩ := c
    rw [List.forall_mem_cons] at h
    rw [read, if_neg h.1, ih h.2]

/-- The memory built from 256 bytes reads as them. -/
theorem read_ofBytes (bs : Vector Byte 256) (a : Fin 256) : read (ofBytes bs) a.val = bs[a] := by
  by_cases h : bs[a] = unlisted
  · rw [h]
    refine read_of_not_mem fun c hc hca => ?_
    obtain ⟨b, -, hb⟩ := List.mem_filterMap.1 hc
    split at hb
    · simp at hb
    · simp only [Option.some.injEq] at hb
      subst hb
      obtain rfl : b = a := Fin.val_injective hca
      exact absurd h ‹¬ bs[b] = unlisted›
  · exact read_of_mem (ofBytes_wf bs) (c := (a.val, bs[a])) (List.mem_filterMap.2 ⟨a, List.mem_finRange a, if_neg h⟩)

/-- An address of 256 or more is never listed. -/
theorem read_of_ge {m : Memory} (hm : wf m) {a : Nat} (ha : 256 ≤ a) : read m a = unlisted :=
  read_of_not_mem fun c hc h => by have := (hm.2 c hc).1; omega

end Memory

/-! ## Through the state -/

theorem memRead_memWrite_same {s : State} (hm : s.mem.wf) (a v : Byte) : memRead (memWrite s a v) a = v :=
  Memory.read_write_same hm a.toNat v

theorem memRead_memWrite_other (s : State) {a b : Byte} (v : Byte) (h : b ≠ a) :
    memRead (memWrite s a v) b = memRead s b :=
  Memory.read_write_other s.mem v fun e => h (BitVec.eq_of_toNat_eq e)

theorem memWrite_wf {s : State} (hm : s.mem.wf) (a v : Byte) : (memWrite s a v).mem.wf :=
  Memory.write_wf hm a.isLt v

theorem storeBytes_wf {vs : List Byte} {s : State} (hm : s.mem.wf) (a : Byte) : (storeBytes s a vs).mem.wf := by
  induction vs generalizing s a with
  | nil => exact hm
  | cons v vs ih => exact ih (memWrite_wf hm a v) (a + 1)

/-- A store changes the memory and nothing else. -/
theorem storeBytes_eq (s : State) (a : Byte) (vs : List Byte) :
    storeBytes s a vs = { s with mem := (storeBytes s a vs).mem } := by
  induction vs generalizing s a with
  | nil => rfl
  | cons v vs ih => rw [storeBytes, ih]; rfl

/-- A store leaves every address it does not reach alone. -/
theorem memRead_storeBytes_other {vs : List Byte} (s : State) {a b : Byte}
    (h : ∀ k < vs.length, b ≠ a + BitVec.ofNat 8 k) : memRead (storeBytes s a vs) b = memRead s b := by
  induction vs generalizing s a with
  | nil => rfl
  | cons v vs ih =>
    rw [storeBytes, ih, memRead_memWrite_other]
    · simpa using h 0 (by simp)
    · intro k hk
      have := h (k + 1) (by simpa using hk)
      rwa [BitVec.ofNat_add, show (BitVec.ofNat 8 k : Byte) + BitVec.ofNat 8 1 = 1 + BitVec.ofNat 8 k from
        BitVec.add_comm _ _, ← BitVec.add_assoc] at this

/-- A store of at most 256 bytes puts the k-th byte at the k-th address, modulo 256. -/
theorem memRead_storeBytes_at {vs : List Byte} {s : State} (hm : s.mem.wf) (hlen : vs.length ≤ 256) (a : Byte)
    {k : Nat} {v : Byte} (hv : vs[k]? = some v) : memRead (storeBytes s a vs) (a + BitVec.ofNat 8 k) = v := by
  induction vs generalizing s a k with
  | nil => simp at hv
  | cons w vs ih =>
    simp only [List.length_cons] at hlen
    cases k with
    | zero =>
      simp only [List.getElem?_cons_zero, Option.some.injEq] at hv
      subst hv
      rw [storeBytes, memRead_storeBytes_other, BitVec.add_zero, memRead_memWrite_same hm]
      intro j hj h
      have := congrArg BitVec.toNat h
      simp only [BitVec.toNat_add, BitVec.toNat_ofNat, show (1 : Byte).toNat = 1 from rfl] at this
      have ha := a.isLt
      omega
    | succ k =>
      simp only [List.getElem?_cons_succ] at hv
      have := ih (memWrite_wf hm a w) (by omega) (a + 1) hv
      rw [storeBytes, ← this, BitVec.add_assoc, show (BitVec.ofNat 8 (k + 1) : Byte) = 1 + BitVec.ofNat 8 k from by
        rw [BitVec.ofNat_add]; exact BitVec.add_comm _ _]

end Sys2Proof.Machine
end

