-- ==== Sys2Proof/Laws/Exec.lean ====
section
/-! SUPPORT. What the shared operations of the meanings can do, said once each, and what exec can do. -/

namespace Sys2Proof.Machine

/-! ## Operand fetch -/

/-- The table of the six valid source bytes and the two-register selections are the same thing. -/
theorem sourcePair_eq (src : Byte) :
    sourcePair src = (if highNibble src = 0 then
      (match select (lowNibble src) with | [p, q] => some (p, q) | _ => none) else none) := by
  revert src; decide

theorem sourcePair_none_iff (src : Byte) :
    sourcePair src = none ↔ highNibble src ≠ 0 ∨ popcount (lowNibble src) ≠ 2 := by
  revert src; decide

theorem mask_ok_of_pair {src : Byte} {x : Reg × Reg} (h : sourcePair src = some x) :
    ¬ (highNibble src ≠ 0 ∨ popcount (lowNibble src) ≠ 2) := by
  rw [← sourcePair_none_iff, h]; simp

/-- The binary operations' operand fetch answers the operand pair or BadSourceMask. -/
theorem binarySource_cases (src : Byte) (f : RegFile) :
    (∃ p q, sourcePair src = some (p, q) ∧ binarySource src f = .ok (f.get p, f.get q)) ∨
    (sourcePair src = none ∧ binarySource src f = .error .badSourceMask) := by
  rw [sourcePair_eq, binarySource]
  by_cases h : highNibble src = 0
  · simp only [h, if_true, ne_eq, not_true_eq_false, if_false]
    generalize select (lowNibble src) = L
    rcases L with _ | ⟨p, _ | ⟨q, _ | ⟨r, L⟩⟩⟩
    · exact .inr ⟨rfl, rfl⟩
    · exact .inr ⟨rfl, rfl⟩
    · exact .inl ⟨p, q, rfl, rfl⟩
    · exact .inr ⟨rfl, rfl⟩
  · simp only [h, if_false, ne_eq, not_false_eq_true, if_true]
    exact .inr ⟨trivial, trivial⟩

/-- DIV's divisor is the second operand of the pair. -/
theorem secondOperand_of_pair {src : Byte} {p q : Reg} (h : sourcePair src = some (p, q)) (f : RegFile) :
    secondOperand src f = f.get q := by
  rw [sourcePair_eq] at h
  split at h
  · split at h
    · rename_i hs
      simp only [Option.some.injEq, Prod.mk.injEq] at h
      obtain ⟨rfl, rfl⟩ := h
      simp [secondOperand, hs]
    · simp at h
  · simp at h

theorem binaryMaskCause_eq (src : Byte) :
    binaryMaskCause src = if sourcePair src = none then some .badSourceMask else none := by
  revert src; decide

/-! ## The shared operations of the meanings -/

/-- ADD to DIV: on a valid pair, the operation's own exception or its result unpacked over the destination; on any other
source byte BadSourceMask. -/
theorem execArith_cases (op : Byte → Byte → Except ExcCause Int) (d : Mask) (src : Byte) (s : State) :
    (sourcePair src = none ∧ execArith op d src s = .next (raiseException .badSourceMask (consume 2 s))) ∨
    ∃ p q, sourcePair src = some (p, q) ∧
      ((∃ c, op (s.regs.get p) (s.regs.get q) = .error c ∧
          execArith op d src s = .next (raiseException c (consume 2 s))) ∨
        ∃ v, op (s.regs.get p) (s.regs.get q) = .ok v ∧
          execArith op d src s = .next { consume 2 s with regs := unpack v (select d) s.regs }) := by
  rcases binarySource_cases src s.regs with ⟨p, q, hp, hb⟩ | ⟨hp, hb⟩
  · refine .inr ⟨p, q, hp, ?_⟩
    rw [execArith, hb]
    cases hop : op (s.regs.get p) (s.regs.get q) with
    | error c => exact .inl ⟨c, rfl, by simp only [hop]⟩
    | ok v => exact .inr ⟨v, rfl, by simp only [hop]⟩
  · exact .inl ⟨hp, by rw [execArith, hb]⟩

/-- AND, OR, XOR: on a valid pair the result in every destination register; on any other source byte BadSourceMask. -/
theorem execBitwise_cases (op : Byte → Byte → Byte) (d : Mask) (src : Byte) (s : State) :
    (sourcePair src = none ∧ execBitwise op d src s = .next (raiseException .badSourceMask (consume 2 s))) ∨
    ∃ p q, sourcePair src = some (p, q) ∧ ∃ f : RegFile,
      execBitwise op d src s = .next { consume 2 s with regs := f } ∧
      (∀ r ∈ select d, f.get r = op (s.regs.get p) (s.regs.get q)) ∧
      ∀ r, r ∉ select d → f.get r = s.regs.get r := by
  rcases binarySource_cases src s.regs with ⟨p, q, hp, hb⟩ | ⟨hp, hb⟩
  · refine .inr ⟨p, q, hp, _, by rw [execBitwise, hb], fun r hr => ?_, fun r hr => RegFile.setAll_other _ _ _ hr⟩
    obtain ⟨k, hk⟩ := List.getElem?_of_mem hr
    exact RegFile.setAll_at (select_nodup d) _ hk (by rw [List.getElem?_map, hk]; rfl)
  · exact .inl ⟨hp, by rw [execBitwise, hb]⟩

/-- LOADR: one of its two exceptions, or the loaded bytes in the destination registers. -/
theorem execLoadr_cases (d : Mask) (src : Byte) (s : State) :
    ((highNibble src ≠ 0 ∨ popcount (lowNibble src) ≠ popcount d) ∧
      ∃ c, execLoadr d src s = .next (raiseException c (consume 2 s))) ∨
    (highNibble src = 0 ∧ popcount (lowNibble src) = popcount d ∧
      execLoadr d src s = .next { consume 2 s with
        regs := s.regs.setAll (select d) ((values s.regs (select (lowNibble src))).map (memRead s)) }) := by
  rw [execLoadr, loadrSource]
  by_cases h1 : highNibble src = 0
  · by_cases h2 : popcount (lowNibble src) = popcount d
    · exact .inr ⟨h1, h2, by simp [h1, h2]⟩
    · exact .inl ⟨.inr h2, .popMismatch, by simp [h1, h2]⟩
  · exact .inl ⟨.inl h1, .badSourceMask, by simp only [ne_eq, h1, not_false_eq_true, if_true]⟩

/-- A branch jumps to its target or falls through. -/
theorem branch_cases (taken : Bool) (target : Byte) (s : State) :
    branch taken target s = jumpTo target (consume 2 s) ∨ branch taken target s = consume 2 s := by
  cases taken <;> simp [branch]

/-- The end of a callback answers its state, if the flags keep the contract. -/
theorem endCallback_next {s t : State} (h : endCallback s = .next t) : t = s ∧ flagsLegal s.flags = true := by
  rw [endCallback] at h
  split at h
  · exact ⟨by simpa using h.symm, ‹_›⟩
  · simp at h

/-- The end of a callback answers, or is refused for its flags. -/
theorem endCallback_outcomes (s : State) : endCallback s = .next s ∨ endCallback s = .refused .exceptionWithoutHalt := by
  rw [endCallback]; split
  · exact .inl rfl
  · exact .inr rfl

/-- A host callback's answer is taken, or refused in one of two ways; it is never a fault. -/
theorem acceptAnswer_outcomes (s : State) (a : CallbackAnswer) :
    (∃ t, acceptAnswer s a = .next t) ∨ acceptAnswer s a = .refused .exceptionWithoutHalt ∨
      acceptAnswer s a = .refused .reentrantRun := by
  cases a with
  | reentered => exact .inr (.inr rfl)
  | returned v out => exact (endCallback_outcomes _).elim (fun h => .inl ⟨_, h⟩) fun h => .inr (.inl h)

/-- A host callback's answer that is a next state is a return with legal flags. -/
theorem acceptAnswer_next {s t : State} {a : CallbackAnswer} (h : acceptAnswer s a = .next t) :
    ∃ v out, a = .returned v out ∧ t = afterCallback s v out ∧ flagsLegal v.flags = true := by
  cases a with
  | reentered => simp [acceptAnswer] at h
  | returned v out =>
    obtain ⟨rfl, hf⟩ := endCallback_next h
    exact ⟨v, out, rfl, rfl, hf⟩

/-- A slot bound to a conventional callback runs no host code. -/
theorem not_runsHostCode_of_conventional {k : Nibble} {s : State}
    (h : slot s.itab k = some .dump ∨ slot s.itab k = some .emit) : ¬ runsHostCode (.itr k) s := by
  rintro ⟨k', id, hk, hs⟩
  cases hk
  rcases h with h | h <;> simp [h] at hs

/-- ITR that runs host callback `id`, through a bound slot or for an empty one, takes its answer. -/
theorem execItr_host {k : Nibble} {id : Nat} {s : State}
    (h : slot s.itab k = some (.host id) ∨ (slot s.itab k = none ∧ s.unboundItr = .callback id)) :
    execItr k s = acceptAnswer (consume 1 s) (Config.callback id k s.draws (hostView (consume 1 s))) := by
  rcases h with h | ⟨h, hu⟩
  · simp only [execItr, invoke, consume_itab, h, runBinding, runHost, consume_draws]
  · simp only [execItr, invoke, consume_itab, h, runUnbound, consume_unboundItr, hu, runHost, consume_draws]

/-- ITR to an empty slot for which the host defines nothing is refused. -/
theorem execItr_unbound {k : Nibble} {s : State} (h : slot s.itab k = none) (hu : s.unboundItr = .refuse) :
    execItr k s = .refused .unboundInterrupt := by
  simp only [execItr, invoke, consume_itab, h, runUnbound, consume_unboundItr, hu]

/-- ITR that answers a next state: a conventional callback's event, or a host callback's return. -/
theorem execItr_next {k : Nibble} {s t : State} (h : execItr k s = .next t) :
    (∃ e, (slot s.itab k = some .dump ∨ slot s.itab k = some .emit) ∧ t = emitOutput [e] (consume 1 s) ∧
      flagsLegal s.flags = true) ∨
    (∃ v out, runsHostCode (.itr k) s ∧ t = afterCallback (consume 1 s) v out ∧ flagsLegal v.flags = true) := by
  rw [execItr, invoke, consume_itab] at h
  split at h
  · rename_i hb
    rw [runUnbound, consume_unboundItr] at h
    split at h
    · simp at h
    · rename_i id hu
      obtain ⟨v, out, -, rfl, hf⟩ := acceptAnswer_next h
      exact .inr ⟨v, out, ⟨k, id, rfl, .inr ⟨hb, hu⟩⟩, rfl, hf⟩
  · rename_i b hb
    cases b with
    | dump => obtain ⟨rfl, hf⟩ := endCallback_next h; exact .inl ⟨_, .inl hb, rfl, hf⟩
    | emit => obtain ⟨rfl, hf⟩ := endCallback_next h; exact .inl ⟨_, .inr hb, rfl, hf⟩
    | host id =>
      obtain ⟨v, out, -, rfl, hf⟩ := acceptAnswer_next h
      exact .inr ⟨v, out, ⟨k, id, rfl, .inl hb⟩, rfl, hf⟩

/-! ## What exec can do -/

/-- The shapes of a next state: all that any instruction can do. -/
inductive Effect (i : Instr) (s : State) : State → Prop where
  /-- HALT. -/
  | halt : i = .halt → Effect i s (haltMachine (consume 1 s))
  /-- An exception is taken. -/
  | exception (c : ExcCause) : raiseCondition i s → i.length = 2 → i ≠ .halt →
      Effect i s (raiseException c (consume 2 s))
  /-- Registers of the destination mask are written. -/
  | registers (f : RegFile) : ¬ raiseCondition i s → i ≠ .halt →
      (∀ r, r ∉ destinations i → f.get r = s.regs.get r) →
      Effect i s { consume i.length s with regs := f }
  /-- A jump is taken. -/
  | jump (m : Mask) (target : Byte) : i = .jmpneq m target ∨ i = .jmpeq m target →
      Effect i s (jumpTo target (consume 2 s))
  /-- STOR stores. -/
  | store (m : Mask) (base : Byte) : i = .stor m base →
      Effect i s (storeBytes (consume 2 s) base (values s.regs (select m)))
  /-- A conventional callback puts out one event. -/
  | output (k : Nibble) (e : OutputEvent) : i = .itr k → ¬ runsHostCode i s → flagsLegal s.flags = true →
      Effect i s (emitOutput [e] (consume 1 s))
  /-- A host callback answered. -/
  | host (v : HostView) (out : List OutputEvent) : runsHostCode i s → flagsLegal v.flags = true →
      Effect i s (afterCallback (consume 1 s) v out)

theorem effect_of_arith {i : Instr} {d : Mask} {src : Byte} {s t : State}
    (op : Byte → Byte → Except ExcCause Int) (h : execArith op d src s = .next t) (hlen : i.length = 2)
    (hi : i ≠ .halt) (hd : destinations i = select d) (hbad : sourcePair src = none → raiseCondition i s)
    (hop : ∀ p q, sourcePair src = some (p, q) →
      ((∃ c, op (s.regs.get p) (s.regs.get q) = .error c) ↔ raiseCondition i s)) : Effect i s t := by
  rcases execArith_cases op d src s with ⟨hp, he⟩ | ⟨p, q, hp, ⟨c, hc, he⟩ | ⟨v, hv, he⟩⟩ <;>
    rw [he] at h <;> cases h
  · exact .exception _ (hbad hp) hlen hi
  · exact .exception _ ((hop p q hp).1 ⟨c, hc⟩) hlen hi
  · rw [← hlen]
    refine .registers _ (fun hr => ?_) hi fun r hr => unpack_other v s.regs (hd ▸ hr)
    obtain ⟨c, hc⟩ := (hop p q hp).2 hr
    rw [hc] at hv; cases hv

theorem effect_of_bitwise {i : Instr} {d : Mask} {src : Byte} {s t : State} (op : Byte → Byte → Byte)
    (h : execBitwise op d src s = .next t) (hlen : i.length = 2) (hi : i ≠ .halt) (hd : destinations i = select d)
    (hr : raiseCondition i s ↔ sourcePair src = none) : Effect i s t := by
  rcases execBitwise_cases op d src s with ⟨hp, he⟩ | ⟨p, q, hp, f, he, -, hf⟩ <;> rw [he] at h <;> cases h
  · exact .exception _ (hr.2 hp) hlen hi
  · rw [← hlen]
    exact .registers f (fun hc => by rw [hr.1 hc] at hp; cases hp) hi fun r hr => hf r (hd ▸ hr)

/-- THE INVERSION: if exec answers a next state, it is one of the seven effects. -/
theorem exec_next {i : Instr} {s t : State} (h : exec i s = .next t) : Effect i s t := by
  cases i with
  | halt => cases h; exact .halt rfl
  | loadi d imms =>
    cases h
    exact .registers (i := .loadi d imms) _ id (by simp) fun r hr => RegFile.setAll_other _ _ _ hr
  | inc m => cases h; exact .registers (i := .inc m) _ id (by simp) (addComposite_spec 1 m s.regs).2
  | dec m => cases h; exact .registers (i := .dec m) _ id (by simp) (addComposite_spec (-1) m s.regs).2
  | loadr d src =>
    rw [exec] at h
    rcases execLoadr_cases d src s with ⟨hc, c, he⟩ | ⟨h1, h2, he⟩ <;> rw [he] at h <;> cases h
    · exact .exception (i := .loadr d src) c hc rfl (by simp)
    · exact .registers (i := .loadr d src) _ (fun hr => hr.elim (· h1) (· h2)) (by simp)
        fun r hr => RegFile.setAll_other _ _ _ hr
  | add d src =>
    exact effect_of_arith addExact h rfl (by simp) rfl (sourcePair_none_iff src).1
      fun p q hp => iff_of_false (fun ⟨_, hc⟩ => by cases hc) (mask_ok_of_pair hp)
  | sub d src =>
    exact effect_of_arith subExact h rfl (by simp) rfl (sourcePair_none_iff src).1
      fun p q hp => iff_of_false (fun ⟨_, hc⟩ => by cases hc) (mask_ok_of_pair hp)
  | mul d src =>
    exact effect_of_arith mulExact h rfl (by simp) rfl (sourcePair_none_iff src).1
      fun p q hp => iff_of_false (fun ⟨_, hc⟩ => by cases hc) (mask_ok_of_pair hp)
  | div d src =>
    refine effect_of_arith divExact h rfl (by simp) rfl
      (fun hp => ((sourcePair_none_iff src).1 hp).elim .inl fun h => .inr (.inl h)) fun p q hp => ?_
    rw [raiseCondition, ← or_assoc, or_iff_right (mask_ok_of_pair hp)]
    simp only [hp, Option.some.injEq, Prod.mk.injEq, divExact]
    by_cases hq : s.regs.get q = 0
    · simp only [hq, if_true]; exact ⟨fun _ => ⟨p, q, ⟨rfl, rfl⟩, hq⟩, fun _ => ⟨_, rfl⟩⟩
    · simp only [hq, if_false]
      refine ⟨fun ⟨c, hc⟩ => (by cases hc), fun ⟨p', q', ⟨_, e⟩, hz⟩ => absurd (e ▸ hz) hq⟩
  | and d src => exact effect_of_bitwise _ h rfl (by simp) rfl (sourcePair_none_iff src).symm
  | or d src => exact effect_of_bitwise _ h rfl (by simp) rfl (sourcePair_none_iff src).symm
  | xor d src => exact effect_of_bitwise _ h rfl (by simp) rfl (sourcePair_none_iff src).symm
  | rotr m =>
    cases h
    refine .registers (i := .rotr m) _ id (by simp) fun r hr => ?_
    split
    · rfl
    · exact RegFile.setAll_other _ _ _ hr
  | jmpneq m target =>
    rw [exec, execJmpneq] at h
    cases h
    rcases branch_cases (takenNeq (values s.regs (select m))) target s with he | he <;> rw [he]
    · exact .jump m target (.inl rfl)
    · exact .registers (i := .jmpneq m target) s.regs id (by simp) fun _ _ => rfl
  | jmpeq m target =>
    rw [exec, execJmpeq] at h
    cases h
    rcases branch_cases (takenEq (values s.regs (select m))) target s with he | he <;> rw [he]
    · exact .jump m target (.inr rfl)
    · exact .registers (i := .jmpeq m target) s.regs id (by simp) fun _ _ => rfl
  | stor m base => cases h; exact .store m base rfl
  | itr k =>
    rcases execItr_next h with ⟨e, hb, rfl, hf⟩ | ⟨v, out, hh, rfl, hf⟩
    · exact .output k e rfl (not_runsHostCode_of_conventional hb) hf
    · exact .host v out hh hf

end Sys2Proof.Machine
end

