-- ==== Sys2Proof/Laws/Boot.lean ====
section
/-! SUPPORT. The loader, the step of a RUNNING machine, the loop, and rotation: one spec lemma each. -/

namespace Sys2Proof.Machine

/-- The cells of an image that fits: canonical, none below its start, and read as the zero-filled image. -/
theorem imageCells_spec (a : Nat) (image : List Byte) (h : a + image.length ≤ 256) :
    (imageCells a image).wf ∧ (∀ c ∈ imageCells a image, a ≤ c.1) ∧
      ∀ k, (imageCells a image).read (a + k) = image.getD k 0 := by
  induction image generalizing a with
  | nil => exact ⟨Memory.wf_nil, by simp [imageCells], fun k => by simp [imageCells, Memory.read, Memory.unlisted]⟩
  | cons v vs ih =>
    simp only [List.length_cons] at h
    obtain ⟨hwf, hge, hread⟩ := ih (a + 1) (by omega)
    have hnext : ∀ k, (imageCells (a + 1) vs).read (a + (k + 1)) = vs.getD k 0 := fun k => by
      rw [show a + (k + 1) = a + 1 + k by omega, hread]
    rw [imageCells]
    split
    · refine ⟨hwf, fun c hc => by have := hge c hc; omega, fun k => ?_⟩
      cases k with
      | zero => rw [Nat.add_zero, Memory.read_of_lt fun c hc => by have := hge c hc; omega]; simp_all
      | succ k => rw [hnext]; simp
    · refine ⟨Memory.wf_cons.2 ⟨fun c hc => ?_, ?_, ‹_›, hwf⟩, fun c hc => ?_, fun k => ?_⟩
      · have := hge c hc; simp only; omega
      · simp only; omega
      · rcases List.mem_cons.1 hc with rfl | hc
        · exact le_refl _
        · have := hge c hc; omega
      · cases k with
        | zero => simp [Memory.read]
        | succ k => rw [Memory.read, if_neg (by omega), hnext]; simp

/-- A RUNNING machine's step is exec of the instruction it fetches. -/
theorem stepWith_of_running (om : OpcodeMap) {s : State} (h : haltFlag s.flags = false) :
    stepWith om s = exec (fetchInstr om s) s := by
  simp only [stepWith, State.runState, h]

/-- A HALTED machine's loop has ended. -/
theorem runLoop_of_halted (om : OpcodeMap) (n : Nat) {s : State} (h : haltFlag s.flags = true) :
    runLoop om n s = .ended s := by
  cases n <;> simp only [runLoop, State.runState, h]

/-- A RUNNING machine's loop takes a step. -/
theorem runLoop_of_running (om : OpcodeMap) (n : Nat) {s : State} (h : haltFlag s.flags = false) :
    runLoop om (n + 1) s = (match stepWith om s with
      | .next t => runLoop om n t
      | .fault .halted => .ended s
      | .refused r => .refused r) := by
  have hs : s.runState = .running := by simp only [State.runState, h]
  simp only [runLoop, hs] <;> cases stepWith om s <;> rfl

/-- The k-th entry moves to place k + 1. -/
theorem rotateRight_succ {α : Type} {L : List α} {k : Nat} {x : α} (h : L[k]? = some x) (hk : k + 1 < L.length) :
    (rotateRight L)[k + 1]? = some x := by
  have hne : L ≠ [] := by rintro rfl; simp at h
  simp only [rotateRight, List.getLast?_eq_some_getLast hne, Option.toList_some, List.cons_append, List.nil_append,
    List.getElem?_cons_succ]
  rw [List.getElem?_dropLast, if_pos (by omega)]; exact h

/-- The last entry moves to the front. -/
theorem rotateRight_zero {α : Type} {L : List α} {x : α} (h : L[L.length - 1]? = some x) :
    (rotateRight L)[0]? = some x := by
  simp [rotateRight, show L.getLast? = some x by rw [List.getLast?_eq_getElem?]; exact h]

end Sys2Proof.Machine
end

