-- ==== Sys2Proof/Laws/PerInstr.lean ====
section
/-! SUPPORT. Statements about every instruction as syntax, one lemma per constructor. -/

namespace Sys2Proof.Laws.EncodingLength

/-- A well-formed instruction's encoding has the instruction's length, from 1 to 5 bytes, and never is empty
(30_encoding.md R63). -/
def Statement (i : Instr) : Prop :=
  ∀ om : OpcodeMap, i.wellFormed = true → (encodeWith om i).length = i.length ∧ 1 ≤ i.length ∧ i.length ≤ maxLength

theorem halt : Statement .halt := fun _ _ => ⟨rfl, by decide⟩
theorem loadi (d : Mask) (imms : List Byte) : Statement (.loadi d imms) := by
  intro om h
  simp only [Instr.wellFormed, Bool.and_eq_true, beq_iff_eq] at h
  have := popcount_le_four d
  simp only [encodeWith, Instr.length, List.length_cons, h.2, maxLength]
  omega
theorem inc (m : Mask) : Statement (.inc m) := fun _ _ => ⟨rfl, by simp [Instr.length, maxLength]⟩
theorem dec (m : Mask) : Statement (.dec m) := fun _ _ => ⟨rfl, by simp [Instr.length, maxLength]⟩
theorem loadr (d : Mask) (src : Byte) : Statement (.loadr d src) := fun _ _ => ⟨rfl, by simp [Instr.length, maxLength]⟩
theorem add (d : Mask) (src : Byte) : Statement (.add d src) := fun _ _ => ⟨rfl, by simp [Instr.length, maxLength]⟩
theorem sub (d : Mask) (src : Byte) : Statement (.sub d src) := fun _ _ => ⟨rfl, by simp [Instr.length, maxLength]⟩
theorem mul (d : Mask) (src : Byte) : Statement (.mul d src) := fun _ _ => ⟨rfl, by simp [Instr.length, maxLength]⟩
theorem div (d : Mask) (src : Byte) : Statement (.div d src) := fun _ _ => ⟨rfl, by simp [Instr.length, maxLength]⟩
theorem and (d : Mask) (src : Byte) : Statement (.and d src) := fun _ _ => ⟨rfl, by simp [Instr.length, maxLength]⟩
theorem or (d : Mask) (src : Byte) : Statement (.or d src) := fun _ _ => ⟨rfl, by simp [Instr.length, maxLength]⟩
theorem xor (d : Mask) (src : Byte) : Statement (.xor d src) := fun _ _ => ⟨rfl, by simp [Instr.length, maxLength]⟩
theorem rotr (m : Mask) : Statement (.rotr m) := fun _ _ => ⟨rfl, by simp [Instr.length, maxLength]⟩
theorem jmpneq (m : Mask) (t : Byte) : Statement (.jmpneq m t) := fun _ _ => ⟨rfl, by simp [Instr.length, maxLength]⟩
theorem jmpeq (m : Mask) (t : Byte) : Statement (.jmpeq m t) := fun _ _ => ⟨rfl, by simp [Instr.length, maxLength]⟩
theorem stor (m : Mask) (a : Byte) : Statement (.stor m a) := fun _ _ => ⟨rfl, by simp [Instr.length, maxLength]⟩
theorem itr (k : Nibble) : Statement (.itr k) := fun _ _ => ⟨rfl, by simp [Instr.length, maxLength]⟩

end Sys2Proof.Laws.EncodingLength
end

