-- ==== Sys2Proof/Tests/Slice0.lean ====
section
/-! SUPPORT. The model's own tests. Expected values are the vectors of 95_test_vectors.md (V-…, W…), the encodings of
30_encoding.md, or hand calculation from them. Then one witness per statement with hypotheses. -/

namespace Sys2Proof.Tests

open Sys2Proof.Machine

/-! ## Well-formedness: each check refuses an ill-formed term -/

theorem test_loadi_empty_mask_ill_formed : (Instr.loadi 0x0 []).wellFormed = false := by decide
theorem test_loadi_missing_immediate_ill_formed : (Instr.loadi 0x3 [0x01]).wellFormed = false := by decide
theorem test_loadi_extra_immediate_ill_formed : (Instr.loadi 0x1 [0x01, 0x02]).wellFormed = false := by decide
theorem test_loadi_well_formed : (Instr.loadi 0xF [1, 2, 3, 4]).wellFormed = true := by decide

/-! ## Decoding: one word per constructor, written out from R62 and R72 -/

theorem test_decode_halt : decode [0b00000000] = .ok (.halt, []) := by rfl
theorem test_decode_loadi : decode [0b00001010, 0x11, 0x22, 0x99] = .ok (.loadi 0b1010 [0x11, 0x22], [0x99]) := by rfl
theorem test_decode_inc : decode [0b00010101] = .ok (.inc 0b0101, []) := by rfl
theorem test_decode_dec : decode [0b00101000] = .ok (.dec 0b1000, []) := by rfl
theorem test_decode_loadr : decode [0b00111000, 0b00000100] = .ok (.loadr 0b1000 0x04, []) := by rfl
theorem test_decode_add : decode [0b01000011, 0b00001100] = .ok (.add 0b0011 0x0C, []) := by rfl
theorem test_decode_sub : decode [0b01010100, 0b00000011] = .ok (.sub 0b0100 0x03, []) := by rfl
theorem test_decode_mul : decode [0b01100011, 0b00001100] = .ok (.mul 0b0011 0x0C, []) := by rfl
theorem test_decode_div_bad_mask_kept : decode [0b01110001, 0b00110000] = .ok (.div 0b0001 0x30, []) := by rfl
theorem test_decode_and : decode [0b10001111, 0b00000011] = .ok (.and 0b1111 0x03, []) := by rfl
theorem test_decode_or : decode [0b10011000, 0b00000011] = .ok (.or 0b1000 0x03, []) := by rfl
theorem test_decode_xor : decode [0b10100001, 0b00001111] = .ok (.xor 0b0001 0x0F, []) := by rfl
theorem test_decode_rotr : decode [0b10110111] = .ok (.rotr 0b0111, []) := by rfl
theorem test_decode_jmpneq : decode [0b11000001, 0b00000010] = .ok (.jmpneq 0b0001 0x02, []) := by rfl
theorem test_decode_jmpeq : decode [0b11010000, 0b01000000] = .ok (.jmpeq 0b0000 0x40, []) := by rfl
theorem test_decode_stor : decode [0b11100011, 0b01010000] = .ok (.stor 0b0011 0x50, []) := by rfl
theorem test_decode_itr : decode [0b11111111] = .ok (.itr 0b1111, []) := by rfl
theorem test_decode_no_byte : decode [] = .error .noByte := by rfl
theorem test_decode_truncated : decode [0x03, 0x01] = .error .truncated := by rfl
theorem test_table_word : decodeTableWord 16 0x0C43 = some (.add 0x3 0x0C) := by decide
theorem test_table_word_bits_above_are_zero : decodeTableWord 8 0xFF07 = some (.loadi 0x7 [0, 0, 0]) := by decide

/-! ## One step each -/

/-- Reset with these bytes from address 0 and these registers. -/
def at0 (bytes : List Byte) (f : RegFile) : State := { storeBytes State.reset 0x00 bytes with regs := f }

/-- Registers, pc and flags after one step. -/
def after (s : State) : Option (RegFile × Byte × Byte) :=
  match step s with
  | .next t => some (t.regs, t.pc, t.flags)
  | _ => none

/-- Some bytes of memory after one step. -/
def memAfter (s : State) (as : List Byte) : Option (List Byte) :=
  match step s with
  | .next t => some (as.map (memRead t))
  | _ => none

/-- The output after one step. -/
def outAfter (s : State) : Option (List OutputEvent) :=
  match step s with
  | .next t => some t.output
  | _ => none

/-- Why a step is refused. -/
def refusalOf (s : State) : Option Refusal :=
  match step s with
  | .refused r => some r
  | _ => none

theorem test_halt_keeps_reserved_flags :  -- V-HA2
    after { at0 [0x00] ⟨0, 0, 0, 0⟩ with flags := 0x04 } = some (⟨0, 0, 0, 0⟩, 0x01, 0x05) := by decide
theorem test_loadi_sparse : after (at0 [0x0A, 0x11, 0x22] ⟨0, 0, 0, 0⟩) = some (⟨0, 0x11, 0, 0x22⟩, 0x03, 0x00) := by
  decide  -- V-LI2
theorem test_loadi_wraps :  -- V-LI3
    after { storeBytes State.reset 0xFF [0x01, 0x5A] with pc := 0xFF } = some (⟨0x5A, 0, 0, 0⟩, 0x01, 0x00) := by decide
theorem test_inc_skips_unselected : after (at0 [0x15] ⟨0xFF, 0, 0x12, 0⟩) = some (⟨0, 0, 0x13, 0⟩, 0x01, 0x00) := by
  decide  -- V-IN1
theorem test_inc_empty_mask : after (at0 [0x10] ⟨5, 0, 0, 0⟩) = some (⟨5, 0, 0, 0⟩, 0x01, 0x00) := by decide  -- V-IN3
theorem test_dec_borrows : after (at0 [0x23] ⟨0, 1, 0, 0⟩) = some (⟨0xFF, 0, 0, 0⟩, 0x01, 0x00) := by decide  -- V-DE1
theorem test_dec_underflows : after (at0 [0x2F] ⟨0, 0, 0, 0⟩) = some (⟨0xFF, 0xFF, 0xFF, 0xFF⟩, 0x01, 0x00) := by
  decide  -- V-DE2
theorem test_loadr_reads_before_writing :  -- V-LR5
    after { storeBytes (at0 [0x33, 0x03] ⟨0x10, 0x11, 0, 0⟩) 0x10 [0xAA, 0xBB] with flags := 0x00 }
      = some (⟨0xAA, 0xBB, 0, 0⟩, 0x02, 0x00) := by decide
theorem test_loadr_high_nibble : after (at0 [0x31, 0x13] ⟨0, 0, 0, 0⟩) = some (⟨0, 0, 0, 0⟩, 0x02, 0x03) := by
  decide  -- V-LR3
theorem test_add_two_registers :  -- V-AD1
    after (at0 [0x43, 0x0C] ⟨0, 0, 0xC8, 0x64⟩) = some (⟨0x2C, 0x01, 0xC8, 0x64⟩, 0x02, 0x00) := by decide
theorem test_add_three_sources : after (at0 [0x41, 0x07] ⟨1, 2, 0, 0⟩) = some (⟨1, 2, 0, 0⟩, 0x02, 0x03) := by
  decide  -- V-AD6
theorem test_sub_wraps : after (at0 [0x5C, 0x03] ⟨1, 2, 0, 0⟩) = some (⟨1, 2, 0xFF, 0xFF⟩, 0x02, 0x00) := by
  decide  -- V-SB2
theorem test_sub_order : after (at0 [0x51, 0x03] ⟨7, 5, 0, 0⟩) = some (⟨2, 5, 0, 0⟩, 0x02, 0x00) := by decide  -- V-SB4
theorem test_mul_wide : after (at0 [0x63, 0x0C] ⟨0, 0, 0xFF, 0xFF⟩) = some (⟨0x01, 0xFE, 0xFF, 0xFF⟩, 0x02, 0x00) := by
  decide  -- V-MU1
theorem test_div_quotient : after (at0 [0x74, 0x03] ⟨0x0A, 3, 0, 0⟩) = some (⟨0x0A, 3, 3, 0⟩, 0x02, 0x00) := by
  decide  -- V-DV1
theorem test_div_zero_with_empty_destination :
    after (at0 [0x70, 0x03] ⟨5, 0, 0, 0⟩) = some (⟨5, 0, 0, 0⟩, 0x02, 0x03) := by decide  -- V-DV5
theorem test_and_broadcast :  -- V-AN1
    after (at0 [0x8F, 0x03] ⟨0xF0, 0x3C, 0, 0⟩) = some (⟨0x30, 0x30, 0x30, 0x30⟩, 0x02, 0x00) := by decide
theorem test_or_source_in_destination :  -- V-OR2
    after (at0 [0x93, 0x09] ⟨1, 0, 0, 0x80⟩) = some (⟨0x81, 0x81, 0, 0x80⟩, 0x02, 0x00) := by decide
theorem test_xor : after (at0 [0xA1, 0x03] ⟨0xAA, 0xFF, 0, 0⟩) = some (⟨0x55, 0xFF, 0, 0⟩, 0x02, 0x00) := by
  decide  -- V-XO1
theorem test_rotr_three : after (at0 [0xB7] ⟨1, 2, 3, 0⟩) = some (⟨3, 1, 2, 0⟩, 0x01, 0x00) := by decide  -- V-RO2
theorem test_rotr_sparse :  -- V-RO6
    after (at0 [0xBA] ⟨0x11, 0x22, 0x33, 0x44⟩) = some (⟨0x11, 0x44, 0x33, 0x22⟩, 0x01, 0x00) := by decide
theorem test_jmpneq_one_zero : after (at0 [0xC1, 0x40] ⟨0, 0, 0, 0⟩) = some (⟨0, 0, 0, 0⟩, 0x02, 0x00) := by
  decide  -- V-JN3
theorem test_jmpneq_differs : after (at0 [0xC7, 0x40] ⟨5, 5, 6, 0⟩) = some (⟨5, 5, 6, 0⟩, 0x40, 0x00) := by
  decide  -- V-JN5
theorem test_jmpeq_one_zero : after (at0 [0xD2, 0x40] ⟨0, 0, 0, 0⟩) = some (⟨0, 0, 0, 0⟩, 0x40, 0x00) := by
  decide  -- V-JE2
theorem test_jmpeq_sparse : after (at0 [0xD9, 0x40] ⟨3, 0, 0, 4⟩) = some (⟨3, 0, 0, 4⟩, 0x02, 0x00) := by
  decide  -- V-JE5
theorem test_stor_wraps :  -- V-ST3
    memAfter (at0 [0xE3, 0xFF] ⟨0x11, 0x22, 0, 0⟩) [0xFF, 0x00, 0x01] = some [0x11, 0x22, 0xFF] := by decide
theorem test_stor_packs_selected :  -- V-ST4
    memAfter (at0 [0xEA, 0x60] ⟨0, 0x22, 0, 0x44⟩) [0x60, 0x61, 0x62] = some [0x22, 0x44, 0x00] := by decide
theorem test_itr_empty_slot : refusalOf (at0 [0xF5] ⟨0, 0, 0, 0⟩) = some .unboundInterrupt := by decide  -- V-IT3
theorem test_itr_dump_sees_next_pc :  -- V-IT2
    outAfter (at0 [0xF0] ⟨0, 0, 0, 0⟩) = some [.dump 0x00 0x01 ⟨0, 0, 0, 0⟩ [(0, 0xF0)]] := by decide
theorem test_halted_does_not_step :  -- V-LP3
    step { at0 [0x00] ⟨0, 0, 0, 0⟩ with flags := 0x01 } = .fault .halted := by rfl
theorem test_fetch_word : after (State.reset.withFetchWord 16 0x0C43) = some (⟨0, 0, 0, 0⟩, 0x02, 0x00) := by decide

/-- A callback that leaves flags 0x02 is refused (V-IT6); one that leaves 0x03 is taken (V-IT5). -/
theorem test_callback_flags (s : State) (v : HostView) :
    acceptAnswer s (.returned { v with flags := 0x02 } []) = .refused .exceptionWithoutHalt ∧
    acceptAnswer s (.returned { v with flags := 0x03 } []) = .next (afterCallback s { v with flags := 0x03 } []) :=
  ⟨if_neg (show ¬ flagsLegal 0x02 = true by decide), if_pos (show flagsLegal 0x03 = true by decide)⟩

/-! ## Witnesses: a state and operands that meet the hypotheses of each statement, clause by clause -/

/-- Slot 2 bound to host callback 7. -/
def hosted : State := { State.reset with itab := conventionalItab.set 2 (some (.host 7)) }

/-- Reset of a host that runs its callback 7 on an ITR to any empty slot. -/
def hostedEmpty : State := { State.reset with unboundItr := .callback 7 }

/-- STOR {r1, r2}, 0x01 at 0xFF: its second byte to store lands where the next instruction is fetched. -/
def selfStore : State := { storeBytes State.reset 0xFF [0xE3, 0x00] with pc := 0xFF, regs := ⟨0xAA, 0xBB, 0, 0⟩ }

theorem not_host_code_of_ne_itr {i : Instr} {s : State} (h : ∀ k, i ≠ .itr k) : ¬ runsHostCode i s :=
  fun ⟨k, _, hk, _⟩ => h k hk

theorem witness_DecodeAfterEncodeIsIdentity :
    (Instr.loadi 0xF [1, 2, 3, 4]).wellFormed = true ∧ Instr.halt.wellFormed = true := by decide
theorem witness_EncodeAfterDecodeIsIdentity :
    decodeWith tableOpcodeMap [0x0F, 1, 2, 3, 4, 5] = .ok (.loadi 0xF [1, 2, 3, 4], [5]) := by rfl
theorem witness_EveryByteBeginsItsOwnInstruction :
    4 ≤ [1, 2, 3, (4 : Byte)].length ∧
    decodeWith tableOpcodeMap [0x0F, 1, 2, 3, 4] = .ok (.loadi 0xF [1, 2, 3, 4], []) := ⟨by decide, rfl⟩
theorem witness_LengthIsFoundFromTheFirstByte :
    decodeWith tableOpcodeMap [0x01, 7, 0] = .ok (.loadi 0x1 [7], [0]) ∧
    decodeWith tableOpcodeMap [0x00, 7] = .ok (.halt, [7]) := ⟨rfl, rfl⟩
theorem witness_StepRunsTheDecodedInstruction :
    haltFlag selfStore.flags = false ∧ decode (fetchN 2 selfStore).1 = .ok (.stor 0x3 0x00, []) := ⟨by decide, rfl⟩
theorem witness_HaltedMachineHasNoStep : haltFlag { State.reset with flags := 0x03 }.flags = true := by decide
theorem witness_RunningStepStopsOnlyInsideItr : haltFlag State.reset.flags = false := by decide
theorem witness_StepKeepsTheInvariant :
    MachineInv (at0 [0x15] ⟨1, 2, 3, 4⟩) ∧ ∃ t, stepWith tableOpcodeMap (at0 [0x15] ⟨1, 2, 3, 4⟩) = .next t :=
  ⟨by decide, _, rfl⟩
theorem witness_LaunchedRunsMeetTheInvariant :
    ∃ t, Reachable tableOpcodeMap State.reset ∧ Launch State.reset ∧ Ends tableOpcodeMap State.reset t :=
  ⟨_, .launch ⟨[], conventionalItab, .refuse, by decide⟩, ⟨[], conventionalItab, .refuse, by decide⟩, 1, rfl⟩
theorem witness_FlagsChangeOnlyByHaltExceptionOrHost :
    (∃ t, exec .halt State.reset = .next t) ∧ ¬ runsHostCode .halt State.reset ∧
    (∃ t, exec (.add 0x1 0x01) State.reset = .next t) ∧ raiseCondition (.add 0x1 0x01) State.reset ∧
    (∃ t, exec (.itr 0x1) State.reset = .next t) ∧ ¬ runsHostCode (.itr 0x1) State.reset ∧
    ¬ raiseCondition (.itr 0x1) State.reset :=
  ⟨⟨_, rfl⟩, not_host_code_of_ne_itr (by simp), ⟨_, rfl⟩, .inr (by decide), ⟨_, rfl⟩,
    not_runsHostCode_of_conventional (.inr rfl), id⟩
theorem witness_PcAdvancesByTheLengthExceptInJumps :
    (∃ t, exec (.jmpeq 0x0 0x40) State.reset = .next t) ∧ ¬ runsHostCode (.jmpeq 0x0 0x40) State.reset :=
  ⟨⟨_, rfl⟩, not_host_code_of_ne_itr (by simp)⟩
theorem witness_RegistersChangeOnlyInTheDestinationMask :
    (∃ t, exec (.div 0x7 0x03) State.reset = .next t) ∧ ¬ runsHostCode (.div 0x7 0x03) State.reset ∧
    Reg.r4 ∉ destinations (.div 0x7 0x03) ∧ raiseCondition (.div 0x7 0x03) State.reset :=
  ⟨⟨_, rfl⟩, not_host_code_of_ne_itr (by simp), by decide, .inr (.inr ⟨.r1, .r2, by decide, by decide⟩)⟩
theorem witness_MemoryChangesOnlyWhereStorStores :
    (∃ t, exec (.stor 0x3 0xFF) State.reset = .next t) ∧ ¬ runsHostCode (.stor 0x3 0xFF) State.reset ∧
    (0x01 : Byte) ∉ storedAddresses (.stor 0x3 0xFF) :=
  ⟨⟨_, rfl⟩, not_host_code_of_ne_itr (by simp), by decide⟩
theorem witness_TableAndOutputChangeOnlyInsideItr :
    (∃ t, exec (.itr 0x1) State.reset = .next t) ∧ ¬ runsHostCode (.itr 0x1) State.reset ∧
    (∃ t, exec .halt State.reset = .next t) ∧ ∀ k, Instr.halt ≠ .itr k :=
  ⟨⟨_, rfl⟩, not_runsHostCode_of_conventional (.inr rfl), ⟨_, rfl⟩, by simp⟩
theorem witness_EveryInstructionButItrCompletes : ∀ k, Instr.stor 0xF 0xFE ≠ .itr k := by simp
theorem witness_NoInstructionReadsFlags : ∀ k, Instr.div 0x0 0x03 ≠ .itr k := by simp
theorem witness_SourceByteGivesTheTabledPair :
    sourcePair 0x0C = some (.r3, .r4) ∧ sourcePair 0x03 = some (.r1, .r2) ∧ sourcePair 0x13 = none ∧
    sourcePair 0x07 = none := by decide
theorem witness_UnpackWritesTheBytesOfTheNarrowedValue :
    [Reg.r1, .r3].Nodup ∧ [Reg.r1, .r3][1]? = some Reg.r3 ∧ Reg.r2 ∉ [Reg.r1, .r3] := by decide
theorem witness_MemoryReadsWhatWasWritten :
    (storeBytes State.reset 0xFF [1, 2]).mem.wf ∧ (0x00 : Byte) ≠ 0xFF := by decide
theorem witness_CanonicalMemoriesThatReadAlikeAreEqual :
    Memory.wf [(0, 1), (255, 2)] ∧ ∀ a, a < 256 → Memory.read [(0, 1), (255, 2)] a = Memory.read [(0, 1), (255, 2)] a :=
  ⟨by decide, fun _ _ => rfl⟩
theorem witness_LoadZeroFillsAndRejectsLongImages :
    (List.replicate 257 (0x10 : Byte)).length > 256 ∧ (List.replicate 256 (0x10 : Byte)).length ≤ 256 := by
  simp only [List.length_replicate]; decide
theorem witness_ConstructionGivesTheResetValues : (List.replicate 256 (0x10 : Byte)).length ≤ 256 := by
  simp only [List.length_replicate]; decide
theorem witness_LoopTestsTheHaltFlagBeforeEveryFetch :
    haltFlag { State.reset with flags := 0x01 }.flags = true ∧
    (haltFlag State.reset.flags = false ∧ ∃ t, stepWith tableOpcodeMap State.reset = .next t) ∧
    (haltFlag (at0 [0xF5] ⟨0, 0, 0, 0⟩).flags = false ∧
      stepWith tableOpcodeMap (at0 [0xF5] ⟨0, 0, 0, 0⟩) = .refused .unboundInterrupt) :=
  ⟨by decide, ⟨by decide, _, rfl⟩, by decide, rfl⟩
theorem witness_EndOfRunIsHaltedAndFinal :
    ∃ t, runLoop tableOpcodeMap 3 State.reset = .ended t ∧ runLoop tableOpcodeMap 1 State.reset = .ended t :=
  ⟨_, rfl, rfl⟩
theorem witness_ExceptionsArePreciseAndHalt :
    raiseCondition (.loadr 0x3 0x01) State.reset ∧ raiseCondition (.xor 0x1 0x10) State.reset :=
  ⟨.inr (by decide), .inl (by decide)⟩
theorem witness_ExceptionsAreRaisedExactlyByTheTable :
    (∀ k, Instr.div 0x0 0x03 ≠ .itr k) ∧ exceptionFlag State.reset.flags = false ∧
    (∃ t, exec (.div 0x0 0x03) State.reset = .next t) ∧
    exceptionCause (.loadr 0x3 0x01) State.reset = some .popMismatch ∧
    exceptionCause (.div 0x0 0x03) State.reset = some .divByZero :=
  ⟨by simp, by decide, ⟨_, rfl⟩, by decide, by decide⟩
theorem witness_LoadiLoadsItsImmediates : (0xF : Mask) ≠ 0 ∧ [1, 2, 3, (4 : Byte)].length = popcount 0xF := by decide
theorem witness_LoadrLoadsThroughRegistersOrRaises :
    highNibble 0x13 ≠ 0 ∧ (highNibble 0x01 = 0 ∧ popcount (lowNibble 0x01) ≠ popcount 0x3) ∧
    (highNibble 0x00 = 0 ∧ popcount (lowNibble 0x00) = popcount 0x0) ∧
    (highNibble 0x0F = 0 ∧ popcount (lowNibble 0x0F) = popcount 0xF) := by decide
theorem witness_AddWritesTheSum : sourcePair 0x0C = some (.r3, .r4) ∧ sourcePair 0x0D = none := by decide
theorem witness_SubWritesTheDifference : sourcePair 0x09 = some (.r1, .r4) ∧ sourcePair 0x08 = none := by decide
theorem witness_MulWritesTheProduct : sourcePair 0x06 = some (.r2, .r3) ∧ sourcePair 0x16 = none := by decide
theorem witness_DivWritesTheQuotientOrRaises :
    sourcePair 0x03 = some (.r1, .r2) ∧ (at0 [] ⟨9, 2, 0, 0⟩).regs.get .r2 ≠ 0 ∧
    (at0 [] ⟨9, 0, 0, 0⟩).regs.get .r2 = 0 ∧ sourcePair 0x30 = none := by decide
theorem witness_AndBroadcastsItsResult : sourcePair 0x05 = some (.r1, .r3) ∧ sourcePair 0x00 = none := by decide
theorem witness_OrBroadcastsItsResult : sourcePair 0x0A = some (.r2, .r4) ∧ sourcePair 0xFF = none := by decide
theorem witness_XorBroadcastsItsResult : sourcePair 0x0C = some (.r3, .r4) ∧ sourcePair 0x0F = none := by decide
theorem witness_RotrMovesValuesAlongTheMask :
    popcount 0x0 < 2 ∧ popcount 0x8 < 2 ∧ 2 ≤ popcount 0x9 ∧ (select 0x9)[0]? = some Reg.r1 ∧
    (select 0x9)[popcount 0x9 - 1]? = some Reg.r4 := by decide
theorem witness_JmpneqJumpsWhenNotEqual :
    select 0x0 = [] ∧ select 0x1 = [.r1] ∧ select 0x3 = [.r1, .r2] ∧
    (at0 [] ⟨2, 0, 0, 0⟩).regs.get .r1 ≠ 0 ∧ (at0 [] ⟨0, 0, 0, 0⟩).regs.get .r1 = 0 ∧
    (∃ r ∈ [Reg.r2], (at0 [] ⟨2, 0, 0, 0⟩).regs.get r ≠ (at0 [] ⟨2, 0, 0, 0⟩).regs.get .r1) ∧
    ∀ r ∈ [Reg.r2], (at0 [] ⟨2, 2, 0, 0⟩).regs.get r = (at0 [] ⟨2, 2, 0, 0⟩).regs.get .r1 := by decide
theorem witness_JmpeqJumpsWhenEqual :
    select 0x0 = [] ∧ select 0x8 = [.r4] ∧ select 0xC = [.r3, .r4] ∧
    (at0 [] ⟨0, 0, 0, 1⟩).regs.get .r4 ≠ 0 ∧ (at0 [] ⟨0, 0, 0, 0⟩).regs.get .r4 = 0 ∧
    (∃ r ∈ [Reg.r4], (at0 [] ⟨0, 0, 0, 1⟩).regs.get r ≠ (at0 [] ⟨0, 0, 0, 1⟩).regs.get .r3) ∧
    ∀ r ∈ [Reg.r4], (at0 [] ⟨0, 0, 0, 0⟩).regs.get r = (at0 [] ⟨0, 0, 0, 0⟩).regs.get .r3 := by decide
theorem witness_ExactlyOneOfTheTwoJumpsIsTaken : (0x0 : Mask) = 0 ∧ (0x1 : Mask) ≠ 0 := by decide
theorem witness_StorWritesTheSelectedRegisters :
    selfStore.mem.wf ∧ (select 0xF)[3]? = some Reg.r4 ∧
    ∀ k, k < popcount 0x3 → (0x01 : Byte) ≠ 0xFF + BitVec.ofNat 8 k := by decide
theorem witness_StoredByteIsFetchedByTheNextStep :
    selfStore.mem.wf ∧ haltFlag selfStore.flags = false ∧ fetchInstr tableOpcodeMap selfStore = .stor 0x3 0x00 ∧
    (select 0x3)[1]? = some Reg.r2 ∧ selfStore.pc + 2 = 0x00 + BitVec.ofNat 8 1 := by decide
theorem witness_ItrRunsTheConventionalCallbacks :
    flagsLegal State.reset.flags = true ∧ slot State.reset.itab 0x0 = some .dump ∧
    slot State.reset.itab 0x1 = some .emit := by decide
theorem witness_ItrToAnEmptySlotIsRefused :
    (slot State.reset.itab 0xF = none ∧ State.reset.unboundItr = .refuse) ∧
    (slot hostedEmpty.itab 0x2 = none ∧ hostedEmpty.unboundItr = .callback 7) := by decide
theorem witness_ItrTakesWhateverTheHostAnswers :
    slot hosted.itab 0x2 = some (.host 7) ∧
    (slot hostedEmpty.itab 0xF = none ∧ hostedEmpty.unboundItr = .callback 7) := by decide
theorem witness_ResetIsConstructionWithTheConventionalTable :
    ∃ s, construct [0x10] conventionalItab (.callback 7) = some s := ⟨_, rfl⟩

end Sys2Proof.Tests
end

namespace Sys2Proof

/-! ## Proofs: the encoding and the decoder are inverse to each other -/

/-- Every term has an instruction byte, followed by its trailing bytes. -/
theorem encodeWith_eq_cons (om : OpcodeMap) (i : Instr) : ∃ b t, encodeWith om i = b :: t := by
  cases i <;> exact ⟨_, _, rfl⟩

/-- Decoding from the instruction byte of an encoding, with its trailing bytes first in what follows, gives the
instruction. HALT and LOADI share opcode 0: the mask, empty or not, tells them apart. -/
theorem decodeInstr_of_encodeWith {om : OpcodeMap} {i : Instr} {b : Byte} {t : List Byte} (rest : List Byte)
    (hwf : i.wellFormed = true) (henc : encodeWith om i = b :: t) :
    decodeInstr om b (fun k => (t ++ rest).getD k 0) = i := by
  cases i <;> obtain ⟨rfl, rfl⟩ := List.cons.inj henc <;>
    simp only [decodeInstr, ofOpcode_instrByte, lowNibble_instrByte, List.cons_append, List.getD_cons_zero, if_true]
  case loadi d imms =>
    obtain ⟨hd, hlen⟩ : d ≠ 0 ∧ imms.length = popcount d := by simpa [Instr.wellFormed] using hwf
    have himms : (List.range (popcount d)).map (fun k => (imms ++ rest).getD k 0) = imms := by
      rw [← hlen, map_getD_range (by simp), List.take_left]
    rw [if_neg hd, himms]

/-- If decoding from an instruction byte gives an instruction, the trailing bytes of its encoding are as many as the
byte calls for. -/
theorem length_trailing_of_decodeInstr {om : OpcodeMap} {i : Instr} {b : Byte} {t : List Byte} {u : Nat → Byte}
    (hdec : decodeInstr om b u = i) (henc : encodeWith om i = b :: t) : t.length = trailingCount om b := by
  rw [← hdec, encodeWith_decodeInstr] at henc
  rw [← (List.cons.inj henc).2, List.length_map, List.length_range]

/-- Settles O1: the decoder takes exactly the trailing bytes of the encoding and reads the instruction from them. -/
theorem decodeAfterEncodeIsIdentity : Obligations.DecodeAfterEncodeIsIdentity := by
  intro om i rest hwf
  obtain ⟨b, t, henc⟩ := encodeWith_eq_cons om i
  have hdec := decodeInstr_of_encodeWith rest hwf henc
  have hlen := length_trailing_of_decodeInstr hdec henc
  rw [henc, List.cons_append, decodeWith_cons_ok (by simp [← hlen]), hdec, ← hlen, List.drop_left]

/-- Settles O2: the encoding of what was decoded is the instruction byte and the trailing bytes taken, and the rest is
what was left of the list. -/
theorem encodeAfterDecodeIsIdentity : Obligations.EncodeAfterDecodeIsIdentity := by
  intro om bs i rest h
  obtain ⟨b, t, rfl, hlen, rfl, rfl⟩ := decodeWith_inv h
  refine ⟨wellFormed_decodeInstr om b _, ?_⟩
  rw [encodeWith_decodeInstr, map_getD_range hlen, List.cons_append, List.take_append_drop]

end Sys2Proof

namespace Sys2Proof.Machine

/-! ## Proofs: the state, what every instruction leaves of it, and its invariant -/

/-! ### Flags -/

/-- A byte without bits 7:2 leaves the reserved bits of the flags it is ORed into alone. -/
theorem reservedFlags_or {g : Byte} (f : Byte) (hg : reservedFlags g = 0#6) :
    reservedFlags (f ||| g) = reservedFlags f :=
  calc reservedFlags (f ||| g) = reservedFlags f ||| reservedFlags g := BitVec.extractLsb'_or
    _ = reservedFlags f := by rw [hg, BitVec.or_zero]

/-- Flags that gain the halt bit are legal, whatever else they gain. -/
theorem flagsLegal_or {g : Byte} (f : Byte) (hg : haltFlag g = true) : flagsLegal (f ||| g) = true := by
  have hhalt : haltFlag (f ||| g) = true := by
    rw [haltFlag] at hg ⊢
    rw [BitVec.getLsbD_or, hg, Bool.or_true]
  rw [flagsLegal, hhalt, Bool.or_true]

/-! ### A store leaves every field but memory alone -/

section storeBytes
variable (s : State) (a : Byte) (vs : List Byte)
@[simp] theorem storeBytes_flags : (storeBytes s a vs).flags = s.flags := by rw [storeBytes_eq]
@[simp] theorem storeBytes_pc : (storeBytes s a vs).pc = s.pc := by rw [storeBytes_eq]
@[simp] theorem storeBytes_regs : (storeBytes s a vs).regs = s.regs := by rw [storeBytes_eq]
@[simp] theorem storeBytes_itab : (storeBytes s a vs).itab = s.itab := by rw [storeBytes_eq]
@[simp] theorem storeBytes_unboundItr : (storeBytes s a vs).unboundItr = s.unboundItr := by rw [storeBytes_eq]
@[simp] theorem storeBytes_output : (storeBytes s a vs).output = s.output := by rw [storeBytes_eq]
@[simp] theorem storeBytes_draws : (storeBytes s a vs).draws = s.draws := by rw [storeBytes_eq]
end storeBytes

/-- A store does the same to the rest of the state whatever flags hold. -/
theorem storeBytes_withFlags (f : Byte) (vs : List Byte) (s : State) (a : Byte) :
    storeBytes { s with flags := f } a vs = { storeBytes s a vs with flags := f } := by
  induction vs generalizing s a with
  | nil => rfl
  | cons v vs ih => exact ih (memWrite s a v) (a + 1)

/-! ### The invariant -/

/-- Each of the seven effects keeps the invariant: only STOR and host code touch memory, and each leaves it canonical;
the flags of a halt and of an exception gain the halt bit, and a callback's flags are accepted only when legal. -/
theorem Effect.machineInv {i : Instr} {s t : State} (h : Effect i s t) (hs : MachineInv s) : MachineInv t := by
  obtain ⟨hmem, hflags⟩ := hs
  cases h with
  | halt _ => exact ⟨hmem, flagsLegal_or s.flags (by decide)⟩
  | exception _ _ _ _ => exact ⟨hmem, flagsLegal_or s.flags (by decide)⟩
  | registers _ _ _ _ => exact ⟨hmem, hflags⟩
  | jump _ _ _ => exact ⟨hmem, hflags⟩
  | store m base _ => exact ⟨storeBytes_wf (s := consume 2 s) hmem base, by rwa [storeBytes_flags]⟩
  | output _ _ _ _ _ => exact ⟨hmem, hflags⟩
  | host v out _ hlegal => exact ⟨Memory.ofBytes_wf v.mem, hlegal⟩

/-- A step that answers is exec of the instruction it fetches. -/
theorem exec_of_stepWith_next {om : OpcodeMap} {s t : State} (h : stepWith om s = .next t) :
    exec (fetchInstr om s) s = .next t := by
  rw [stepWith] at h
  split at h
  · cases h
  · exact h

/-- Settles O11: a step that answers is one of the seven effects, and each keeps the invariant. -/
theorem stepKeepsTheInvariant : Obligations.StepKeepsTheInvariant :=
  fun _ _ _ hs h => (exec_next (exec_of_stepWith_next h)).machineInv hs

/-- Settles O12: no cell of the reset memory is listed and no flag is set. -/
theorem resetMeetsTheInvariant : Obligations.ResetMeetsTheInvariant :=
  ⟨Memory.wf_nil, by decide⟩

/-! ### What an instruction leaves unchanged -/

/-- A jump raises no exception. -/
theorem not_raiseCondition_of_jump {i : Instr} {m : Mask} {target : Byte} (s : State)
    (h : i = .jmpneq m target ∨ i = .jmpeq m target) : ¬ raiseCondition i s := by
  rcases h with rfl | rfl <;> exact id

/-- Settles O14, effect by effect: HALT and an exception are the two that OR a byte into flags. -/
theorem flagsChangeOnlyByHaltExceptionOrHost : Obligations.FlagsChangeOnlyByHaltExceptionOrHost := by
  intro i s t h hhost
  cases exec_next h with
  | halt hi =>
    subst hi
    exact ⟨fun _ => rfl, False.elim, fun hne => absurd rfl hne, reservedFlags_or s.flags (by decide)⟩
  | exception c hr _ hi =>
    exact ⟨fun e => absurd e hi, fun _ => rfl, fun _ hn => absurd hr hn, reservedFlags_or s.flags (by decide)⟩
  | registers f hr hi _ => exact ⟨fun e => absurd e hi, fun hc => absurd hc hr, fun _ _ => rfl, rfl⟩
  | jump m target hj =>
    exact ⟨fun e => by simp [e] at hj, fun hc => absurd hc (not_raiseCondition_of_jump s hj), fun _ _ => rfl, rfl⟩
  | store m base hi => subst hi; exact ⟨nofun, False.elim, fun _ _ => by simp, by simp⟩
  | output k e hi _ _ => subst hi; exact ⟨nofun, False.elim, fun _ _ => rfl, rfl⟩
  | host v out hc _ => exact absurd hc hhost

/-- Settles O15, effect by effect: a taken jump is the one that leaves pc anywhere but just past the instruction. -/
theorem pcAdvancesByTheLengthExceptInJumps : Obligations.PcAdvancesByTheLengthExceptInJumps := by
  intro i s t h hhost
  cases exec_next h with
  | halt hi => subst hi; exact .inl rfl
  | exception c _ hlen _ => rw [hlen]; exact .inl rfl
  | registers f _ _ _ => exact .inl rfl
  | jump m target hj => exact .inr ⟨m, target, hj, rfl⟩
  | store m base hi => subst hi; exact .inl (storeBytes_pc (consume 2 s) base _)
  | output k e hi _ _ => subst hi; exact .inl rfl
  | host v out hc _ => exact absurd hc hhost

/-- Settles O16, effect by effect: only the register effect writes registers, it stays inside the destinations, and it
is no exception. -/
theorem registersChangeOnlyInTheDestinationMask : Obligations.RegistersChangeOnlyInTheDestinationMask := by
  intro i s t h hhost
  cases exec_next h with
  | halt _ => exact ⟨fun _ _ => rfl, fun _ _ => rfl⟩
  | exception _ _ _ _ => exact ⟨fun _ _ => rfl, fun _ _ => rfl⟩
  | registers f hr _ hf => exact ⟨hf, fun hc => absurd hc hr⟩
  | jump _ _ _ => exact ⟨fun _ _ => rfl, fun _ _ => rfl⟩
  | store _ _ _ => simp
  | output _ _ _ _ _ => exact ⟨fun _ _ => rfl, fun _ _ => rfl⟩
  | host v out hc _ => exact absurd hc hhost

/-- Settles O18, effect by effect: the two effects of ITR append output, and host code alone moves the table and the
counter. -/
theorem tableAndOutputChangeOnlyInsideItr : Obligations.TableAndOutputChangeOnlyInsideItr := by
  intro i s t h
  cases exec_next h with
  | halt _ => simp
  | exception _ _ _ _ => simp
  | registers _ _ _ _ => simp
  | jump _ _ _ => simp
  | store _ _ _ => simp
  | output k e hi _ _ => exact ⟨fun _ => ⟨rfl, rfl⟩, fun hne => absurd hi (hne k), rfl, [e], rfl⟩
  | host v out hc _ =>
    have ⟨k, _, hi, _⟩ := hc
    exact ⟨fun hn => absurd hc hn, fun hne => absurd hi (hne k), rfl, out, rfl⟩

/-! ### No meaning reads flags -/

/-- Run on `s`, a meaning ORs some byte into flags; on `s` with flags `f` it ORs the same byte into `f` and does the
same to everything else. -/
def OrsIntoFlags (run : State → Host.Outcome State Fault Refusal) (s : State) (f : Byte) : Prop :=
  ∃ (t : State) (g : Byte), run s = .next t ∧ t.flags = s.flags ||| g ∧
    run { s with flags := f } = .next { t with flags := f ||| g }

/-- A meaning that keeps flags, from `s` and from `s` with flags `f` alike, ORs the byte 0. -/
theorem orsIntoFlags_of_kept {run : State → Host.Outcome State Fault Refusal} {s t : State} {f : Byte}
    (hs : run s = .next t) (hflags : t.flags = s.flags)
    (hf : run { s with flags := f } = .next { t with flags := f }) : OrsIntoFlags run s f :=
  ⟨t, 0#8, hs, by rw [hflags, BitVec.or_zero], by rw [hf, BitVec.or_zero]⟩

/-- A meaning that takes the same exception from `s` and from `s` with flags `f` ORs the byte 3. -/
theorem orsIntoFlags_of_raised {run : State → Host.Outcome State Fault Refusal} {s : State} {f : Byte} {c : ExcCause}
    (hs : run s = .next (raiseException c (consume 2 s)))
    (hf : run { s with flags := f } = .next (raiseException c (consume 2 { s with flags := f }))) :
    OrsIntoFlags run s f :=
  ⟨_, 0x03, hs, rfl, hf⟩

section meanings
variable (d : Mask) (src : Byte) (s : State) (f : Byte)

/-- ADD to DIV: the operand fetch and the operation decide between exception and result. -/
theorem execArith_orsIntoFlags (op : Byte → Byte → Except ExcCause Int) :
    OrsIntoFlags (execArith op d src) s f := by
  cases hb : binarySource src s.regs with
  | error c => exact orsIntoFlags_of_raised (c := c) (by simp only [execArith, hb]) (by simp only [execArith, hb])
  | ok ab =>
    cases hop : op ab.1 ab.2 with
    | error c =>
      exact orsIntoFlags_of_raised (c := c) (by simp only [execArith, hb, hop]) (by simp only [execArith, hb, hop])
    | ok v =>
      exact orsIntoFlags_of_kept (t := { consume 2 s with regs := unpack v (select d) s.regs })
        (by simp only [execArith, hb, hop]) rfl (by simp only [execArith, hb, hop]; rfl)

/-- AND, OR, XOR: the operand fetch decides between exception and result. -/
theorem execBitwise_orsIntoFlags (op : Byte → Byte → Byte) :
    OrsIntoFlags (execBitwise op d src) s f := by
  cases hb : binarySource src s.regs with
  | error c => exact orsIntoFlags_of_raised (c := c) (by simp only [execBitwise, hb]) (by simp only [execBitwise, hb])
  | ok ab =>
    exact orsIntoFlags_of_kept
      (t := { consume 2 s with regs := s.regs.setAll (select d) ((select d).map fun _ => op ab.1 ab.2) })
      (by simp only [execBitwise, hb]) rfl (by simp only [execBitwise, hb]; rfl)

/-- LOADR: the two masks decide between exception and loads. -/
theorem execLoadr_orsIntoFlags : OrsIntoFlags (execLoadr d src) s f := by
  cases hL : loadrSource d src with
  | error c => exact orsIntoFlags_of_raised (c := c) (by simp only [execLoadr, hL]) (by simp only [execLoadr, hL])
  | ok L =>
    exact orsIntoFlags_of_kept
      (t := { consume 2 s with regs := s.regs.setAll (select d) ((values s.regs L).map (memRead s)) })
      (by simp only [execLoadr, hL]) rfl (by simp only [execLoadr, hL]; rfl)

/-- Both jumps: whether one is taken is decided by register values alone. -/
theorem branch_orsIntoFlags (taken : RegFile → Bool) (target : Byte) :
    OrsIntoFlags (fun u => .next (branch (taken u.regs) target u)) s f := by
  cases ht : taken s.regs with
  | true =>
    exact orsIntoFlags_of_kept (t := jumpTo target (consume 2 s)) (by simp only [ht]; rfl) rfl (by simp only [ht]; rfl)
  | false => exact orsIntoFlags_of_kept (t := consume 2 s) (by simp only [ht]; rfl) rfl (by simp only [ht]; rfl)

/-- STOR: the bytes stored are register values, and the store itself does not look at flags. -/
theorem execStor_orsIntoFlags (m : Mask) (base : Byte) : OrsIntoFlags (execStor m base) s f :=
  orsIntoFlags_of_kept rfl (storeBytes_flags (consume 2 s) base _)
    (congrArg Host.Outcome.next (storeBytes_withFlags f _ (consume 2 s) base))

end meanings

/-- Settles O20, instruction by instruction: HALT ORs 1, an exception 3, and every other case keeps flags. -/
theorem noInstructionReadsFlags : Obligations.NoInstructionReadsFlags := by
  intro i s f hitr
  change OrsIntoFlags (exec i) s f
  cases i with
  | halt => exact ⟨_, 0x01, rfl, rfl, rfl⟩
  | loadi _ _ => exact orsIntoFlags_of_kept rfl rfl rfl
  | inc _ => exact orsIntoFlags_of_kept rfl rfl rfl
  | dec _ => exact orsIntoFlags_of_kept rfl rfl rfl
  | loadr d src => exact execLoadr_orsIntoFlags d src s f
  | add d src => exact execArith_orsIntoFlags d src s f addExact
  | sub d src => exact execArith_orsIntoFlags d src s f subExact
  | mul d src => exact execArith_orsIntoFlags d src s f mulExact
  | div d src => exact execArith_orsIntoFlags d src s f divExact
  | and d src => exact execBitwise_orsIntoFlags d src s f _
  | or d src => exact execBitwise_orsIntoFlags d src s f _
  | xor d src => exact execBitwise_orsIntoFlags d src s f _
  | rotr _ => exact orsIntoFlags_of_kept rfl rfl rfl
  | jmpneq m target => exact branch_orsIntoFlags s f (fun g => takenNeq (values g (select m))) target
  | jmpeq m target => exact branch_orsIntoFlags s f (fun g => takenEq (values g (select m))) target
  | stor m base => exact execStor_orsIntoFlags s f m base
  | itr k => exact absurd rfl (hitr k)

/-! ### Construction -/

/-- An image that fits is loaded from address 0. -/
theorem load_of_fits {image : List Byte} (h : image.length ≤ 256) : load image = some (imageCells 0 image) :=
  if_neg (by omega)

/-- A machine whose halt bit is clear is RUNNING. -/
theorem runState_eq_running {s : State} (h : haltFlag s.flags = false) : s.runState = .running := by
  rw [State.runState, h]

/-- Settles O29: the image fits, so construction answers; every field but memory is written out in it, and its memory
reads as the zero-filled image. -/
theorem constructionGivesTheResetValues : Obligations.ConstructionGivesTheResetValues := by
  intro image itab u hlen
  obtain ⟨-, -, hread⟩ := imageCells_spec 0 image (by omega)
  refine ⟨_, by rw [construct, load_of_fits hlen, Option.map_some], rfl, rfl, fun r => by cases r <;> rfl,
    fun a => ?_, rfl, runState_eq_running (show haltFlag 0x00 = false by decide)⟩
  rw [memRead, ← hread, Nat.zero_add]

end Sys2Proof.Machine

namespace Sys2Proof.Machine

/-! ## Proofs: memory, and what STOR does to it -/

/-! ### Canonical memory is determined by what it reads as -/

namespace Memory

/-- The cells of a canonical memory are the addresses that read as something listed, each with what it reads as. -/
theorem mem_iff_read {m : Memory} (hm : wf m) (c : Host.Cell) : c ∈ m ↔ read m c.1 = c.2 ∧ c.2 ≠ unlisted := by
  constructor
  · exact fun hc => ⟨read_of_mem hm hc, (hm.2 c hc).2⟩
  · rintro ⟨hread, hne⟩
    have ⟨d, hd, haddr⟩ : ∃ d ∈ m, d.1 = c.1 := by
      by_contra hnone
      exact hne (hread ▸ read_of_not_mem fun d hd e => hnone ⟨d, hd, e⟩)
    have hval : d.2 = c.2 := by rw [← read_of_mem hm hd, haddr, hread]
    exact (Prod.ext haddr hval : d = c) ▸ hd

/-- Canonical memories that read alike at the 256 addresses list the same cells, and both list them in rising order. -/
theorem eq_of_read_eq {m m' : Memory} (hm : wf m) (hm' : wf m') (h : ∀ a, a < 256 → read m a = read m' a) : m = m' := by
  have hread : ∀ a, read m a = read m' a := fun a => by
    rcases lt_or_ge a 256 with ha | ha
    · exact h a ha
    · rw [read_of_ge hm ha, read_of_ge hm' ha]
  refine List.Pairwise.eq_of_mem_iff (r := InvImage (· < ·) Prod.fst) hm.1 hm'.1 fun c => ?_
  rw [mem_iff_read hm, mem_iff_read hm', hread]

/-- The 256 bytes of a memory give the memory back. -/
theorem ofBytes_toBytes {m : Memory} (hm : wf m) : ofBytes m.toBytes = m :=
  eq_of_read_eq (ofBytes_wf _) hm fun a ha => by
    have hbyte : m.toBytes[(⟨a, ha⟩ : Fin 256)] = m.read a := Vector.getElem_ofFn ha
    rw [← hbyte, ← read_ofBytes]

end Memory

/-- Settles O26: the byte written and the others are the two reading rules, and a write touches memory alone. -/
theorem memoryReadsWhatWasWritten : Obligations.MemoryReadsWhatWasWritten :=
  fun _ a v hm =>
    ⟨memRead_memWrite_same hm a v, fun _ hb => memRead_memWrite_other _ v hb, _, memWrite_wf hm a v, rfl⟩

/-- Settles O27: reading determines a canonical memory, and the rebuilt memory reads as the one it was built from. -/
theorem canonicalMemoriesThatReadAlikeAreEqual : Obligations.CanonicalMemoriesThatReadAlikeAreEqual :=
  ⟨fun _ _ => Memory.eq_of_read_eq, fun _ => Memory.ofBytes_toBytes⟩

/-! ### STOR -/

/-- The state STOR leaves (43_store.md R190). -/
def afterStor (s : State) (m : Mask) (base : Byte) : State :=
  storeBytes (consume 2 s) base (values s.regs (select m))

section stor
variable (s : State) (m : Mask) (base : Byte)

theorem exec_stor : exec (.stor m base) s = .next (afterStor s m base) := rfl

@[simp] theorem afterStor_pc : (afterStor s m base).pc = s.pc + 2 := storeBytes_pc (consume 2 s) base _

/-- STOR stores as many bytes as its mask selects registers. -/
theorem length_values_select (f : RegFile) : (values f (select m)).length = popcount m := by
  rw [values, List.length_map, length_select]

/-- Every address STOR does not store to reads as before. -/
theorem memRead_afterStor_other {b : Byte} (h : b ∉ storedAddresses (.stor m base)) :
    memRead (afterStor s m base) b = memRead s b := by
  rw [afterStor, memRead_storeBytes_other, memRead_consume]
  rintro k hk rfl
  rw [length_values_select] at hk
  exact h (List.mem_map_of_mem (List.mem_range.2 hk))

/-- `base + k` reads as the k-th selected register. -/
theorem memRead_afterStor_at (hm : s.mem.wf) {k : Nat} {r : Reg} (hr : (select m)[k]? = some r) :
    memRead (afterStor s m base) (base + BitVec.ofNat 8 k) = s.regs.get r := by
  have hfew : (values s.regs (select m)).length ≤ 256 := by
    rw [length_values_select]
    exact (popcount_le_four m).trans (by decide)
  exact memRead_storeBytes_at (s := consume 2 s) hm hfew base (by rw [values, List.getElem?_map, hr, Option.map_some])

end stor

/-- Settles O17, effect by effect: a store is the one effect without host code that writes memory. -/
theorem memoryChangesOnlyWhereStorStores : Obligations.MemoryChangesOnlyWhereStorStores := by
  intro i s t h hhost b hb
  cases exec_next h with
  | halt _ => rfl
  | exception _ _ _ _ => rfl
  | registers _ _ _ _ => rfl
  | jump _ _ _ => rfl
  | store m base hi => subst hi; exact memRead_afterStor_other s m base hb
  | output _ _ _ _ _ => rfl
  | host v out hc _ => exact absurd hc hhost

/-! ### The fetch after a store -/

/-- The bytes that follow the one at `p + 2` stand from `p + 3` on. -/
theorem add_two_add_ofNat_succ (p : Byte) (j : Nat) : p + 2 + BitVec.ofNat 8 (j + 1) = p + 3 + BitVec.ofNat 8 j := by
  rw [Nat.add_comm, BitVec.ofNat_add, ← BitVec.add_assoc, BitVec.add_assoc p]
  rfl

/-- Settles O54: STOR leaves pc at ia + 2, where its k-th byte landed, so the next fetch reads that byte, and the
trailing bytes of the next instruction after it. -/
theorem storedByteIsFetchedByTheNextStep : Obligations.StoredByteIsFetchedByTheNextStep := by
  intro om m base s k r hm hrun hstor hr hland
  have hstep : stepWith om s = .next (afterStor s m base) := by rw [stepWith_of_running om hrun, hstor, exec_stor]
  have hbyte : memRead (afterStor s m base) (s.pc + 2) = s.regs.get r := by
    rw [hland, memRead_afterStor_at s m base hm hr]
  refine ⟨_, hstep, ?_, ?_⟩
  · rw [fetch8, afterStor_pc, hbyte]
  · simp only [fetchInstr, afterStor_pc, hbyte, add_two_add_ofNat_succ]

end Sys2Proof.Machine

namespace Sys2Proof

/-! ## Proofs: encoding, from the first byte to the end of a run -/

/-! ### The first byte decides -/

/-- No byte calls for more trailing bytes than LOADI with its four immediates (30_encoding.md R63). -/
theorem trailingCount_le_four (om : OpcodeMap) (b : Byte) : trailingCount om b ≤ 4 := by
  unfold trailingCount
  split
  case h_1 => exact popcount_le_four _
  all_goals decide

/-- Settles O3: four bytes are trailing bytes enough, and the first byte of what is decoded is the first byte of its
encoding. -/
theorem everyByteBeginsItsOwnInstruction : Obligations.EveryByteBeginsItsOwnInstruction := by
  constructor
  · intro om b bs hlen
    exact ⟨_, _, decodeWith_cons_ok ((trailingCount_le_four om b).trans hlen)⟩
  · intro om b b' bs i rest rest' h h'
    obtain ⟨c, t, henc⟩ := encodeWith_eq_cons om i
    obtain ⟨-, hbytes⟩ := encodeAfterDecodeIsIdentity om _ i rest h
    obtain ⟨-, hbytes'⟩ := encodeAfterDecodeIsIdentity om _ i rest' h'
    rw [henc] at hbytes hbytes'
    obtain ⟨rfl, -⟩ := List.cons.inj hbytes
    obtain ⟨rfl, -⟩ := List.cons.inj hbytes'
    rfl

/-- Settles O4: an instruction is its first byte and the trailing bytes that byte calls for, mnemonic by mnemonic. -/
theorem lengthIsFoundFromTheFirstByte : Obligations.LengthIsFoundFromTheFirstByte := by
  intro om b bs i rest h
  obtain ⟨_, _, hbs, hlen, rfl, rfl⟩ := decodeWith_inv h
  obtain ⟨rfl, rfl⟩ := List.cons.inj hbs
  rw [length_decodeInstr]
  constructor
  · rw [trailingCount]
    cases om.ofOpcode (highNibble b) <;> rfl
  · rw [List.length_drop]
    omega

/-- Settles O5: each value is a position of the opcode table. -/
theorem defaultOpcodesFollowTheTable : Obligations.DefaultOpcodesFollowTheTable := by
  unfold Obligations.DefaultOpcodesFollowTheTable
  decide

/-! ### The mask resolver -/

/-- Settles O21: select filters the registers, listed in ascending order, by their bits, and popcount adds the bits. -/
theorem selectListsTheMaskInAscendingOrder : Obligations.SelectListsTheMaskInAscendingOrder := by
  intro m
  have hasc : (select m).Pairwise fun r q => r.position < q.position := List.Pairwise.filter _ (by decide)
  have hcount : popcount m = (List.range 4).countP fun i => m.getLsbD i := by revert m; decide
  exact ⟨mem_select m .r1, mem_select m .r2, mem_select m .r3, mem_select m .r4, hasc, hcount, length_select m⟩

end Sys2Proof

namespace Sys2Proof.Machine

/-! ### The composite integer codec -/

/-- The k-th register of the list weighs 256^k: each register after the first weighs 256 times what it weighs in the
rest of the list. -/
theorem pack_eq_sum (f : RegFile) (L : List Reg) :
    pack f L = ((List.range L.length).map fun k => (f.get (L.getD k .r1)).toNat * 256 ^ k).sum := by
  induction L with
  | nil => rfl
  | cons r rs ih =>
    rw [pack, ih, ← List.sum_map_mul_left, List.length_cons, List.range_succ_eq_map, List.map_cons, List.sum_cons,
      List.map_map, List.getD_cons_zero, pow_zero, mul_one]
    congr 3
    funext k
    rw [Function.comp_apply, Nat.succ_eq_add_one, List.getD_cons_succ, pow_succ]
    ring

theorem pack_lt_two_pow (f : RegFile) (L : List Reg) : pack f L < 2 ^ (8 * L.length) := by
  rw [two_pow_eight_mul]
  exact pack_lt f L

/-- Settles O23: pack is the weighted sum, and each register of the list adds one base-256 digit. -/
theorem packIsTheLittleEndianSum : Obligations.PackIsTheLittleEndianSum :=
  fun f L => ⟨pack_eq_sum f L, pack_lt_two_pow f L⟩

/-- The k-th register of a list without repeats gets byte k of the narrowed value. -/
theorem toNat_get_unpack {L : List Reg} (hL : L.Nodup) (v : Int) (f : RegFile) {k : Nat} {r : Reg}
    (hr : L[k]? = some r) :
    (((unpack v L f).get r).toNat : Int) = v % 2 ^ (8 * L.length) / 256 ^ k % 256 := by
  have hnonneg : 0 ≤ v % (2 ^ (8 * L.length) : Int) := Int.emod_nonneg v (by positivity)
  rw [unpack, setDigits_at hL f _ hr, BitVec.toNat_ofNat]
  push_cast
  rw [Int.toNat_of_nonneg hnonneg]

/-- Settles O24: the digits written are the bytes of the narrowed value; registers outside the list are not written, and
an empty list has none. -/
theorem unpackWritesTheBytesOfTheNarrowedValue : Obligations.UnpackWritesTheBytesOfTheNarrowedValue :=
  fun v _ f hL => ⟨fun _ _ hr => toNat_get_unpack hL v f hr, fun _ hr => unpack_other v f hr, rfl⟩

/-- Settles O25: a packed number is narrow enough to be unpacked whole, and registers that pack alike are equal. -/
theorem unpackAfterPackIsIdentity : Obligations.UnpackAfterPackIsIdentity := by
  intro m f
  have hnarrow := pack_lt_two_pow f (select m)
  have hpack : pack (unpack (pack f (select m)) (select m) f) (select m) = pack f (select m) := by
    have hint := pack_unpack (select_nodup m) (pack f (select m)) f
    rw [Int.emod_eq_of_lt (by positivity) (by exact_mod_cast hnarrow)] at hint
    exact_mod_cast hint
  refine RegFile.ext_get fun r => ?_
  by_cases hr : r ∈ select m
  · exact get_of_pack_eq hpack r hr
  · exact unpack_other _ f hr

/-! ### The fetch and the step -/

/-- The encoding of the instruction at pc is the bytes from pc on, modulo 256, as many as it is long. -/
theorem encodeWith_fetchInstr (om : OpcodeMap) (s : State) :
    encodeWith om (fetchInstr om s) =
      (List.range (fetchInstr om s).length).map fun k => memRead s (s.pc + BitVec.ofNat 8 k) := by
  rw [fetchInstr, encodeWith_decodeInstr, length_decodeInstr, Nat.add_comm, List.range_succ_eq_map, List.map_cons,
    List.map_map, BitVec.add_zero]
  rfl

/-- Settles O10: fetching reads the bytes from pc on and advances pc past them, and they are the encoding. -/
theorem fetchConsumesTheEncoding : Obligations.FetchConsumesTheEncoding := by
  intro om s
  refine ⟨wellFormed_decodeInstr om _ _, ?_⟩
  rw [fetchN_eq, encodeWith_fetchInstr]
  rfl

/-- Whatever follows the instruction in the bytes decoded, the step executes it. -/
theorem stepWith_of_decode {om : OpcodeMap} {s : State} {n : Nat} {i : Instr} {rest : List Byte}
    (hrun : haltFlag s.flags = false) (hdec : decodeWith om (fetchN n s).1 = .ok (i, rest)) :
    stepWith om s = exec i s := by
  rw [stepWith_of_running om hrun, fetchInstr_of_decode hdec]

/-- Settles O7: the step and the decoder under the default map are those under every map. -/
theorem stepRunsTheDecodedInstruction : Obligations.StepRunsTheDecodedInstruction :=
  ⟨fun _ _ _ _ => stepWith_of_decode (om := tableOpcodeMap), fun _ _ _ _ _ => stepWith_of_decode⟩

/-- Settles O8: the step tests the halt bit before it fetches. -/
theorem haltedMachineHasNoStep : Obligations.HaltedMachineHasNoStep := by
  intro om s h
  simp only [stepWith, State.runState, h]

/-! ### A RUNNING machine does not fault -/

theorem endCallback_ne_fault (s : State) (r : Fault) : endCallback s ≠ .fault r := by
  rcases endCallback_outcomes s with h | h <;> simp [h]

theorem acceptAnswer_ne_fault (s : State) (a : CallbackAnswer) (r : Fault) : acceptAnswer s a ≠ .fault r := by
  rcases acceptAnswer_outcomes s a with ⟨t, h⟩ | h | h <;> simp [h]

/-- Whatever the slot holds, ITR is refused or ends a callback. -/
theorem execItr_ne_fault (k : Nibble) (s : State) (r : Fault) : execItr k s ≠ .fault r := by
  rcases hslot : slot s.itab k with _ | b
  · cases hu : s.unboundItr with
    | refuse => simp [execItr_unbound hslot hu]
    | callback id => rw [execItr_host (.inr ⟨hslot, hu⟩)]; exact acceptAnswer_ne_fault _ _ r
  · rw [execItr, invoke, consume_itab, hslot]
    cases b with
    | dump => exact endCallback_ne_fault _ r
    | emit => exact endCallback_ne_fault _ r
    | host id => exact acceptAnswer_ne_fault _ _ r

/-- No meaning faults: every instruction but ITR answers a next state. -/
theorem exec_ne_fault (i : Instr) (s : State) (r : Fault) : exec i s ≠ .fault r := by
  by_cases hitr : ∃ k, i = .itr k
  · obtain ⟨k, rfl⟩ := hitr
    exact execItr_ne_fault k s r
  · obtain ⟨t, -, ht, -⟩ := noInstructionReadsFlags i s s.flags (not_exists.1 hitr)
    simp [ht]

theorem stepWith_ne_fault_of_running (om : OpcodeMap) {s : State} (h : haltFlag s.flags = false) (r : Fault) :
    stepWith om s ≠ .fault r := by
  rw [stepWith_of_running om h]
  exact exec_ne_fault _ s r

/-! ### The loop -/

theorem runLoop_of_step_next {om : OpcodeMap} (n : Nat) {s t : State} (hrun : haltFlag s.flags = false)
    (hstep : stepWith om s = .next t) : runLoop om (n + 1) s = runLoop om n t := by
  simp only [runLoop_of_running om n hrun, hstep]

theorem runLoop_of_step_refused {om : OpcodeMap} (n : Nat) {s : State} {r : Refusal} (hrun : haltFlag s.flags = false)
    (hstep : stepWith om s = .refused r) : runLoop om (n + 1) s = .refused r := by
  simp only [runLoop_of_running om n hrun, hstep]

/-- Settles O31: a HALTED machine's loop has ended; a RUNNING one's goes by the outcome of its step. -/
theorem loopTestsTheHaltFlagBeforeEveryFetch : Obligations.LoopTestsTheHaltFlagBeforeEveryFetch :=
  ⟨fun om n _ => runLoop_of_halted om n, fun _ n _ _ => runLoop_of_step_next n,
    fun _ n _ _ => runLoop_of_step_refused n⟩

/-- A loop that ends in `t` stands there with the halt bit set, or takes a step and ends in `t` from the next state. -/
theorem runLoop_ended_cases {om : OpcodeMap} {n : Nat} {s t : State} (h : runLoop om n s = .ended t) :
    (haltFlag s.flags = true ∧ s = t) ∨
    ∃ m u, n = m + 1 ∧ haltFlag s.flags = false ∧ stepWith om s = .next u ∧ runLoop om m u = .ended t := by
  cases hs : haltFlag s.flags with
  | true =>
    rw [runLoop_of_halted om n hs] at h
    exact .inl ⟨rfl, LoopResult.ended.inj h⟩
  | false =>
    cases n with
    | zero => simp [runLoop, runState_eq_running hs] at h
    | succ m =>
      cases hstep : stepWith om s with
      | next u => exact .inr ⟨m, u, rfl, rfl, rfl, runLoop_of_step_next m hs hstep ▸ h⟩
      | fault r => exact absurd hstep (stepWith_ne_fault_of_running om hs r)
      | refused r => simp [runLoop_of_step_refused m hs hstep] at h

/-- Induction over a run that ends in `t`: what holds at the halt, and goes back over every step, holds of the start. -/
theorem runLoop_ended_induction {om : OpcodeMap} {t : State} {P : Nat → State → Prop}
    (halted : haltFlag t.flags = true → ∀ n, P n t)
    (step : ∀ n s u, haltFlag s.flags = false → stepWith om s = .next u → P n u → P (n + 1) s)
    {n : Nat} {s : State} (h : runLoop om n s = .ended t) : P n s := by
  induction n generalizing s with
  | zero =>
    rcases runLoop_ended_cases h with ⟨hs, rfl⟩ | ⟨_, _, hn, _⟩
    · exact halted hs 0
    · cases hn
  | succ n ih =>
    rcases runLoop_ended_cases h with ⟨hs, rfl⟩ | ⟨_, u, hn, hrun, hstep, hu⟩
    · exact halted hs (n + 1)
    · cases hn
      exact step n s u hrun hstep (ih hu)

/-- A run ends in a HALTED state. -/
theorem haltFlag_of_runLoop_ended {om : OpcodeMap} {n : Nat} {s t : State} (h : runLoop om n s = .ended t) :
    haltFlag t.flags = true :=
  runLoop_ended_induction (P := fun _ _ => haltFlag t.flags = true) (fun hhalt _ => hhalt) (fun _ _ _ _ _ ih => ih) h

/-- Fuel that a run does not need does not change its end. -/
theorem runLoop_add_of_ended {om : OpcodeMap} {n : Nat} {s t : State} (h : runLoop om n s = .ended t) (k : Nat) :
    runLoop om (n + k) s = .ended t := by
  refine runLoop_ended_induction (P := fun n s => runLoop om (n + k) s = .ended t) ?_ ?_ h
  · exact fun hhalt n => runLoop_of_halted om (n + k) hhalt
  · intro n s u hrun hstep ih
    rw [Nat.add_right_comm, runLoop_of_step_next _ hrun hstep, ih]

/-- Settles O32: two runs that end are compared under the sum of their fuels. -/
theorem endOfRunIsHaltedAndFinal : Obligations.EndOfRunIsHaltedAndFinal := by
  intro om n s t h
  have hhalt := haltFlag_of_runLoop_ended h
  refine ⟨hhalt, haltedMachineHasNoStep om t hhalt, runLoop_add_of_ended h, fun k u hu => ?_⟩
  have hsum : LoopResult.ended u = .ended t :=
    calc LoopResult.ended u = runLoop om (k + n) s := (runLoop_add_of_ended hu n).symm
      _ = runLoop om (n + k) s := by rw [Nat.add_comm]
      _ = .ended t := runLoop_add_of_ended h k
  exact LoopResult.ended.inj hsum

end Sys2Proof.Machine

namespace Sys2Proof

/-! ## Proofs: HALT, LOADI, INC, DEC, LOADR -/

/-- LOADI's instruction byte, which HALT shares, is the same under every opcode map (40_load_incdec.md R100, R101). -/
theorem instrByte_loadi (om : OpcodeMap) (arg : Nibble) : instrByte om .loadi arg = (0x0#4 ++ arg : BitVec (4 + 4)) :=
  congrArg (· ++ arg) (toOpcode_loadi om)

end Sys2Proof

namespace Sys2Proof.Machine

/-! ### HALT and LOADI -/

/-- Flags that gain the halt bit have it. -/
theorem haltFlag_or {g : Byte} (f : Byte) (hg : haltFlag g = true) : haltFlag (f ||| g) = true := by
  rw [haltFlag] at hg ⊢
  rw [BitVec.getLsbD_or, hg, Bool.or_true]

/-- Settles O35: 0x00 is LOADI's byte with the empty mask, and the state HALT leaves has the halt bit. -/
theorem haltSetsTheHaltBit : Obligations.HaltSetsTheHaltBit := by
  constructor
  · intro om rest
    have hbyte : instrByte om .loadi 0 = 0x00 := (instrByte_loadi om 0).trans (by decide)
    have hdec := decodeAfterEncodeIsIdentity om .halt rest rfl
    rwa [encodeWith, hbyte] at hdec
  · exact fun s => ⟨rfl, fun om => haltedMachineHasNoStep om _ (haltFlag_or s.flags (by decide))⟩

/-- Settles O36: the immediates are written register by register, in mask order. -/
theorem loadiLoadsItsImmediates : Obligations.LoadiLoadsItsImmediates := by
  intro d imms hd hlen
  constructor
  · intro om rest
    have hwf : (Instr.loadi d imms).wellFormed = true := by simpa [Instr.wellFormed, hlen] using hd
    have hdec := decodeAfterEncodeIsIdentity om (.loadi d imms) rest hwf
    rwa [encodeWith, instrByte_loadi, List.cons_append] at hdec
  · exact fun s => ⟨s.regs.setAll (select d) imms, rfl, fun _ _ _ => RegFile.setAll_at (select_nodup d) s.regs,
      fun _ => RegFile.setAll_other (select d) imms s.regs⟩

/-! ### INC and DEC -/

/-- Settles O37: INC's change of the composite is 1. -/
theorem incAddsOneToTheComposite : Obligations.IncAddsOneToTheComposite := by
  intro m
  refine ⟨fun om rest => decodeAfterEncodeIsIdentity om (.inc m) rest rfl, fun s => ?_⟩
  obtain ⟨hpack, hkeep⟩ := addComposite_spec 1 m s.regs
  exact ⟨addComposite 1 m s.regs, rfl, by exact_mod_cast hpack, hkeep⟩

/-- One less, modulo `M`, is `M - 1` more: the form without a negative number. -/
theorem add_neg_one_emod (p : Nat) {M : Nat} (hM : 0 < M) : ((p : Int) + -1) % M = ((p + M - 1) % M : Nat) := by
  have hcast : ((p + M - 1 : Nat) : Int) = p + -1 + M := by omega
  rw [Int.natCast_mod, hcast, Int.add_emod_right]

/-- Settles O38: DEC's change of the composite is -1. -/
theorem decSubtractsOneFromTheComposite : Obligations.DecSubtractsOneFromTheComposite := by
  intro m
  refine ⟨fun om rest => decodeAfterEncodeIsIdentity om (.dec m) rest rfl, fun s => ?_⟩
  obtain ⟨hpack, hkeep⟩ := addComposite_spec (-1) m s.regs
  have hpred := add_neg_one_emod (pack s.regs (select m)) (Nat.two_pow_pos (8 * popcount m))
  push_cast at hpred
  exact ⟨addComposite (-1) m s.regs, rfl, by exact_mod_cast hpack.trans hpred, hkeep⟩

/-- Register files that pack alike over a list and agree outside it are equal. -/
theorem RegFile.eq_of_pack_eq {f g : RegFile} {L : List Reg} (hpack : pack f L = pack g L)
    (hkeep : ∀ r, r ∉ L → f.get r = g.get r) : f = g :=
  RegFile.ext_get fun r => (em (r ∈ L)).elim (get_of_pack_eq hpack r) (hkeep r)

/-- Opposite changes of one composite cancel: it is narrowed modulo its width, which a packed number is below. -/
theorem addComposite_cancel {a b : Int} (hab : a + b = 0) (m : Mask) (f : RegFile) :
    addComposite b m (addComposite a m f) = f := by
  obtain ⟨hpackA, hkeepA⟩ := addComposite_spec a m f
  obtain ⟨hpackB, hkeepB⟩ := addComposite_spec b m (addComposite a m f)
  refine RegFile.eq_of_pack_eq (L := select m) ?_ fun r hr => (hkeepB r hr).trans (hkeepA r hr)
  have hnarrow := pack_lt_two_pow f (select m)
  rw [length_select] at hnarrow
  rw [hpackA, Int.emod_add_emod, add_assoc, hab, add_zero,
    Int.emod_eq_of_lt (by positivity) (by exact_mod_cast hnarrow)] at hpackB
  exact_mod_cast hpackB

/-- Settles O39: 1 and -1 are opposite changes, in either order. -/
theorem incAndDecUndoEachOther : Obligations.IncAndDecUndoEachOther :=
  fun m s => ⟨⟨_, _, rfl, rfl, addComposite_cancel (by decide) m s.regs⟩,
    ⟨_, _, rfl, rfl, addComposite_cancel (by decide) m s.regs⟩⟩

/-! ### LOADR -/

/-- The k-th destination register gets the byte at the address that the k-th source register held before. -/
theorem get_setAll_loaded {d m : Mask} (s : State) {k : Nat} {p q : Reg} (hp : (select m)[k]? = some p)
    (hq : (select d)[k]? = some q) :
    (s.regs.setAll (select d) ((values s.regs (select m)).map (memRead s))).get q = memRead s (s.regs.get p) :=
  RegFile.setAll_at (select_nodup d) s.regs hq (by simp [values, hp])

/-- Settles O40: either a check fails and the exception is taken, or both pass and the bytes are loaded. -/
theorem loadrLoadsThroughRegistersOrRaises : Obligations.LoadrLoadsThroughRegistersOrRaises := by
  intro d src
  refine ⟨fun om rest => decodeAfterEncodeIsIdentity om (.loadr d src) rest rfl, fun s => ?_⟩
  rcases execLoadr_cases d src s with ⟨hbad, c, he⟩ | ⟨hhigh, hcount, he⟩
  · exact ⟨fun _ => he, fun hhigh hcount => (hbad.elim (· hhigh) (· hcount)).elim⟩
  · exact ⟨fun hbad => (hbad.elim (· hhigh) (· hcount)).elim, fun _ _ =>
      ⟨_, he, fun _ _ _ => get_setAll_loaded s, fun _ => RegFile.setAll_other (select d) _ s.regs⟩⟩

end Sys2Proof.Machine

namespace Sys2Proof

/-! ## Proofs: the operand fetch, ADD to DIV, AND to XOR, ROTR -/

/-- A mask lists its registers lower-numbered first (30_encoding.md R65). -/
theorem select_ascending (m : Mask) : (select m).Pairwise fun r q => r.position < q.position :=
  List.Pairwise.filter _ (by decide)

end Sys2Proof

namespace Sys2Proof.Machine

/-! ### The operand fetch -/

/-- The tabled pair of a source byte is its selection, when that is of two registers and the high nibble is zero. -/
theorem sourcePair_eq_some_iff {src : Byte} {p q : Reg} :
    sourcePair src = some (p, q) ↔ highNibble src = 0 ∧ select (lowNibble src) = [p, q] := by
  rw [sourcePair_eq]
  by_cases hhigh : highNibble src = 0
  · rw [if_pos hhigh, and_iff_right hhigh]
    split
    case h_1 a b hsel => simp [hsel]
    case h_2 hother => exact ⟨nofun, fun hsel => absurd hsel (hother p q)⟩
  · rw [if_neg hhigh]
    exact ⟨nofun, fun h => absurd h.1 hhigh⟩

theorem binarySource_of_pair {src : Byte} {p q : Reg} (hp : sourcePair src = some (p, q)) (f : RegFile) :
    binarySource src f = .ok (f.get p, f.get q) := by
  obtain ⟨hhigh, hsel⟩ := sourcePair_eq_some_iff.1 hp
  rw [binarySource, if_neg (not_not.2 hhigh), hsel]

theorem binarySource_of_bad {src : Byte} (hbad : sourcePair src = none) (f : RegFile) :
    binarySource src f = .error .badSourceMask := by
  rcases binarySource_cases src f with ⟨p, q, hp, -⟩ | ⟨-, he⟩
  · rw [hbad] at hp
    cases hp
  · exact he

/-- The first operand is the lower-numbered register (41_alu.md R130). -/
theorem position_lt_of_pair {src : Byte} {p q : Reg} (hp : sourcePair src = some (p, q)) :
    p.position < q.position := by
  obtain ⟨-, hsel⟩ := sourcePair_eq_some_iff.1 hp
  have hasc := select_ascending (lowNibble src)
  rw [hsel] at hasc
  exact List.rel_of_pairwise_cons hasc List.mem_cons_self

/-- Settles O22: the table lists the two-register selections of the bytes whose high nibble is zero, and the operand
fetch goes by the table. -/
theorem sourceByteGivesTheTabledPair : Obligations.SourceByteGivesTheTabledPair := by
  refine ⟨fun _ f _ _ hp => ⟨binarySource_of_pair hp f, position_lt_of_pair hp⟩,
    fun _ f hbad => binarySource_of_bad hbad f, fun src => ?_⟩
  rw [ne_eq, sourcePair_none_iff, not_or, not_not, not_not]

/-- On a byte outside the table the ghost cause is BadSourceMask (60_exceptions.md R222). -/
theorem binaryMaskCause_of_bad {src : Byte} (hbad : sourcePair src = none) :
    binaryMaskCause src = some .badSourceMask := by
  rw [binaryMaskCause_eq, if_pos hbad]

/-! ### ADD, SUB, MUL, DIV -/

section arithmetic
variable {op : Byte → Byte → Except ExcCause Int} {d : Mask} {src : Byte} {s : State} {p q : Reg}

/-- A result, on a valid pair: the destination composite is the result modulo its width, and nothing but it and pc
changes. -/
theorem execArith_of_ok {v : Int} (hp : sourcePair src = some (p, q))
    (hop : op (s.regs.get p) (s.regs.get q) = .ok v) :
    ∃ f : RegFile, execArith op d src s = .next { s with pc := s.pc + 2, regs := f } ∧
      (pack f (select d) : Int) = v % 2 ^ (8 * popcount d) ∧ ∀ r, r ∉ select d → f.get r = s.regs.get r := by
  refine ⟨unpack v (select d) s.regs, ?_, ?_, fun r hr => unpack_other v s.regs hr⟩
  · simp only [execArith, binarySource_of_pair hp, hop]
    rfl
  · rw [pack_unpack (select_nodup d), length_select]

/-- The operation's own exception, on a valid pair. -/
theorem execArith_of_error {c : ExcCause} (hp : sourcePair src = some (p, q))
    (hop : op (s.regs.get p) (s.regs.get q) = .error c) :
    execArith op d src s = .next (raiseException c (consume 2 s)) := by
  simp only [execArith, binarySource_of_pair hp, hop]

theorem execArith_of_bad (op : Byte → Byte → Except ExcCause Int) (hbad : sourcePair src = none) :
    execArith op d src s = .next (raiseException .badSourceMask (consume 2 s)) := by
  rw [execArith, binarySource_of_bad hbad]

end arithmetic

/-- Settles O41: the exact result of ADD is the sum. -/
theorem addWritesTheSum : Obligations.AddWritesTheSum := by
  intro d src
  refine ⟨fun om rest => decodeAfterEncodeIsIdentity om (.add d src) rest rfl, fun s => ⟨fun p q hp => ?_,
    fun hbad => ⟨execArith_of_bad addExact hbad, binaryMaskCause_of_bad hbad⟩⟩⟩
  obtain ⟨f, he, hpack, hkeep⟩ := execArith_of_ok (op := addExact) (d := d) (s := s) hp rfl
  exact ⟨f, he, by exact_mod_cast hpack, hkeep⟩

/-- Settles O42: the exact result of SUB is the difference, which may be negative. -/
theorem subWritesTheDifference : Obligations.SubWritesTheDifference := by
  intro d src
  exact ⟨fun om rest => decodeAfterEncodeIsIdentity om (.sub d src) rest rfl, fun s =>
    ⟨fun p q hp => execArith_of_ok (op := subExact) hp rfl,
      fun hbad => ⟨execArith_of_bad subExact hbad, binaryMaskCause_of_bad hbad⟩⟩⟩

/-- Settles O43: the exact result of MUL is the product. -/
theorem mulWritesTheProduct : Obligations.MulWritesTheProduct := by
  intro d src
  refine ⟨fun om rest => decodeAfterEncodeIsIdentity om (.mul d src) rest rfl, fun s => ⟨fun p q hp => ?_,
    fun hbad => ⟨execArith_of_bad mulExact hbad, binaryMaskCause_of_bad hbad⟩⟩⟩
  obtain ⟨f, he, hpack, hkeep⟩ := execArith_of_ok (op := mulExact) (d := d) (s := s) hp rfl
  exact ⟨f, he, by exact_mod_cast hpack, hkeep⟩

theorem divExact_of_ne_zero (a : Byte) {b : Byte} (hb : b ≠ 0) :
    divExact a b = .ok ((a.toNat / b.toNat : Nat) : Int) :=
  if_neg hb

theorem divExact_of_eq_zero (a : Byte) {b : Byte} (hb : b = 0) : divExact a b = .error .divByZero :=
  if_pos hb

theorem exceptionCause_div_of_bad {d : Mask} {src : Byte} {s : State} (hbad : sourcePair src = none) :
    exceptionCause (.div d src) s = some .badSourceMask := by
  simp only [exceptionCause, binaryMaskCause_of_bad hbad]

/-- The zero check comes after the mask check, which a tabled pair passes (60_exceptions.md R224). -/
theorem exceptionCause_div_of_zero {d : Mask} {src : Byte} {s : State} {p q : Reg}
    (hp : sourcePair src = some (p, q)) (hz : s.regs.get q = 0) :
    exceptionCause (.div d src) s = some .divByZero := by
  have hmask : binaryMaskCause src = none := by simp [binaryMaskCause_eq, hp]
  simp only [exceptionCause, hmask, secondOperand_of_pair hp, hz, if_true]

/-- Settles O44: the exact result of DIV is the quotient, but for the divisor 0, which raises DivByZero. -/
theorem divWritesTheQuotientOrRaises : Obligations.DivWritesTheQuotientOrRaises := by
  intro d src
  refine ⟨fun om rest => decodeAfterEncodeIsIdentity om (.div d src) rest rfl, fun s => ⟨fun p q hp hne => ?_,
    fun p q hp hz => ⟨execArith_of_error hp (divExact_of_eq_zero _ hz), exceptionCause_div_of_zero hp hz⟩,
    fun hbad => ⟨execArith_of_bad divExact hbad, exceptionCause_div_of_bad hbad⟩⟩⟩
  obtain ⟨f, he, hpack, hkeep⟩ := execArith_of_ok (d := d) hp (divExact_of_ne_zero (s.regs.get p) hne)
  exact ⟨f, he, by exact_mod_cast hpack, hkeep⟩

/-! ### AND, OR, XOR -/

section bitwise
variable {op : Byte → Byte → Byte} {d : Mask} {src : Byte} {s : State}

/-- On a valid pair, an operation that works bit by bit puts each bit of its result into every destination register. -/
theorem execBitwise_of_pair {p q : Reg} {bit : Bool → Bool → Bool} (hp : sourcePair src = some (p, q))
    (hbit : ∀ (a b : Byte) (j : Nat), (op a b).getLsbD j = bit (a.getLsbD j) (b.getLsbD j)) :
    ∃ f : RegFile, execBitwise op d src s = .next { s with pc := s.pc + 2, regs := f } ∧
      (∀ r, r ∈ select d → ∀ j : Nat,
        (f.get r).getLsbD j = bit ((s.regs.get p).getLsbD j) ((s.regs.get q).getLsbD j)) ∧
      ∀ r, r ∉ select d → f.get r = s.regs.get r := by
  rcases execBitwise_cases op d src s with ⟨hbad, -⟩ | ⟨p', q', hp', f, he, hwrite, hkeep⟩
  · rw [hp] at hbad
    cases hbad
  · rw [hp] at hp'
    cases hp'
    exact ⟨f, he, fun r hr j => by rw [hwrite r hr, hbit], hkeep⟩

theorem execBitwise_of_bad (hbad : sourcePair src = none) :
    execBitwise op d src s = .next (raiseException .badSourceMask (consume 2 s)) := by
  rw [execBitwise, binarySource_of_bad hbad]

end bitwise

/-- Settles O45: bit j of a bitwise AND is the AND of the two bits j. -/
theorem andBroadcastsItsResult : Obligations.AndBroadcastsItsResult := by
  intro d src
  exact ⟨fun om rest => decodeAfterEncodeIsIdentity om (.and d src) rest rfl, fun s =>
    ⟨fun p q hp => execBitwise_of_pair (bit := and) hp fun _ _ _ => BitVec.getLsbD_and,
      fun hbad => ⟨execBitwise_of_bad hbad, binaryMaskCause_of_bad hbad⟩⟩⟩

/-- Settles O46: bit j of a bitwise OR is the OR of the two bits j. -/
theorem orBroadcastsItsResult : Obligations.OrBroadcastsItsResult := by
  intro d src
  exact ⟨fun om rest => decodeAfterEncodeIsIdentity om (.or d src) rest rfl, fun s =>
    ⟨fun p q hp => execBitwise_of_pair (bit := or) hp fun _ _ _ => BitVec.getLsbD_or,
      fun hbad => ⟨execBitwise_of_bad hbad, binaryMaskCause_of_bad hbad⟩⟩⟩

/-- Settles O47: bit j of a bitwise XOR is the XOR of the two bits j. -/
theorem xorBroadcastsItsResult : Obligations.XorBroadcastsItsResult := by
  intro d src
  exact ⟨fun om rest => decodeAfterEncodeIsIdentity om (.xor d src) rest rfl, fun s =>
    ⟨fun p q hp => execBitwise_of_pair (bit := xor) hp fun _ _ _ => BitVec.getLsbD_xor,
      fun hbad => ⟨execBitwise_of_bad hbad, binaryMaskCause_of_bad hbad⟩⟩⟩

/-! ### ROTR -/

/-- The registers ROTR leaves (41_alu.md R140). -/
def rotateRegs (m : Mask) (f : RegFile) : RegFile :=
  if (select m).length < 2 then f else f.setAll (select m) (rotateRight (values f (select m)))

/-- The state ROTR leaves (41_alu.md R140). -/
def afterRotr (m : Mask) (s : State) : State := { s with pc := s.pc + 1, regs := rotateRegs m s.regs }

theorem exec_rotr (m : Mask) (s : State) : exec (.rotr m) s = .next (afterRotr m s) := rfl

/-- A list of fewer than two entries is its own rotation. -/
theorem rotateRight_of_length_lt_two {α : Type} {L : List α} (h : L.length < 2) : rotateRight L = L := by
  rcases L with _ | ⟨x, _ | ⟨y, L⟩⟩
  · rfl
  · rfl
  · simp only [List.length_cons] at h
    omega

/-- Rotating left by one place undoes the rotation: the last entry goes back from the front to the end. -/
theorem rotate_one_rotateRight {α : Type} (L : List α) : (rotateRight L).rotate 1 = L := by
  rcases List.eq_nil_or_concat L with rfl | ⟨init, last, rfl⟩
  · rfl
  · simp [rotateRight]

theorem length_rotateRight {α : Type} (L : List α) : (rotateRight L).length = L.length := by
  rw [← List.length_rotate (rotateRight L) 1, rotate_one_rotateRight]

/-- Rotating left by n places undoes n rotations. -/
theorem rotate_rotateRight_iterate {α : Type} (n : Nat) (L : List α) : (rotateRight^[n] L).rotate n = L := by
  induction n generalizing L with
  | zero => exact L.rotate_zero
  | succ n ih => rw [Function.iterate_succ_apply, ← List.rotate_rotate, ih, rotate_one_rotateRight]

/-- As many rotations as a list has entries are the whole round. -/
theorem rotateRight_iterate_length {α : Type} (L : List α) : rotateRight^[L.length] L = L := by
  have hundo := rotate_rotateRight_iterate L.length L
  have hlen : (rotateRight^[L.length] L).length = L.length := by
    rw [← List.length_rotate (rotateRight^[L.length] L) L.length, hundo]
  have hround := List.rotate_length (rotateRight^[L.length] L)
  rw [hlen, hundo] at hround
  exact hround.symm

section rotateRegs
variable (m : Mask) (f : RegFile)

/-- The values of the selected registers are rotated, the no-op below two registers included. -/
theorem values_rotateRegs : values (rotateRegs m f) (select m) = rotateRight (values f (select m)) := by
  have hlen : (values f (select m)).length = (select m).length := List.length_map _
  rw [rotateRegs]
  split
  · rw [rotateRight_of_length_lt_two (by omega)]
  · exact values_setAll (select_nodup m) (by rw [length_rotateRight, hlen]) f

theorem rotateRegs_other {r : Reg} (hr : r ∉ select m) : (rotateRegs m f).get r = f.get r := by
  rw [rotateRegs]
  split
  · rfl
  · exact RegFile.setAll_other _ _ f hr

theorem rotateRegs_of_popcount_lt_two (h : popcount m < 2) : rotateRegs m f = f :=
  if_pos (by rwa [length_select])

end rotateRegs

theorem getElem?_values (f : RegFile) {L : List Reg} {k : Nat} {r : Reg} (hr : L[k]? = some r) :
    (values f L)[k]? = some (f.get r) := by
  rw [values, List.getElem?_map, hr, Option.map_some]

/-- The k-th selected register holds, after ROTR, the k-th of the rotated values. -/
theorem get_rotateRegs {m : Mask} {f : RegFile} {k : Nat} {r : Reg} {v : Byte} (hr : (select m)[k]? = some r)
    (hv : (rotateRight (values f (select m)))[k]? = some v) : (rotateRegs m f).get r = v := by
  rw [← values_rotateRegs, getElem?_values _ hr] at hv
  exact Option.some.inj hv

/-- Settles O48: the last value moves to the front of the mask's values, the k-th to place k + 1. -/
theorem rotrMovesValuesAlongTheMask : Obligations.RotrMovesValuesAlongTheMask := by
  intro m
  refine ⟨fun om rest => decodeAfterEncodeIsIdentity om (.rotr m) rest rfl, fun s => ⟨fun hfew => ?_, fun _ =>
    ⟨rotateRegs m s.regs, rfl, fun first last hfirst hlast => ?_, fun k p q hp hq => ?_,
      fun r hr => rotateRegs_other m s.regs hr⟩⟩⟩
  · rw [exec_rotr, afterRotr, rotateRegs_of_popcount_lt_two m s.regs hfew]
  · refine get_rotateRegs hfirst (rotateRight_zero ?_)
    rw [length_values_select, getElem?_values _ hlast]
  · refine get_rotateRegs hq (rotateRight_succ (getElem?_values _ hp) ?_)
    obtain ⟨hk, -⟩ := List.getElem?_eq_some_iff.1 hq
    rwa [length_values_select, ← length_select]

/-- Register files with the same values over a list that agree outside it are equal. -/
theorem RegFile.eq_of_values_eq {f g : RegFile} {L : List Reg} (hvalues : values f L = values g L)
    (hkeep : ∀ r, r ∉ L → f.get r = g.get r) : f = g :=
  RegFile.ext_get fun r => (em (r ∈ L)).elim (List.map_inj_left.1 hvalues r) (hkeep r)

theorem values_rotateRegs_iterate (m : Mask) (n : Nat) (f : RegFile) :
    values ((rotateRegs m)^[n] f) (select m) = rotateRight^[n] (values f (select m)) :=
  Function.Semiconj.iterate_right (f := (values · (select m))) (values_rotateRegs m) n f

theorem rotateRegs_iterate_other (m : Mask) (n : Nat) (f : RegFile) {r : Reg} (hr : r ∉ select m) :
    ((rotateRegs m)^[n] f).get r = f.get r := by
  have hkeep : Function.Semiconj (RegFile.get · r) (rotateRegs m) id := fun g => rotateRegs_other m g hr
  have hiter := hkeep.iterate_right n f
  rwa [Function.iterate_id] at hiter

/-- As many rotations as registers selected are the whole round. -/
theorem rotateRegs_iterate_popcount (m : Mask) (f : RegFile) : (rotateRegs m)^[popcount m] f = f := by
  refine RegFile.eq_of_values_eq (L := select m) ?_ fun r hr => rotateRegs_iterate_other m _ f hr
  rw [values_rotateRegs_iterate, ← length_values_select m f, rotateRight_iterate_length]

/-- Settles O49: repeating ROTR repeats the rotation of the registers. -/
theorem rotrCycleRestoresEveryRegister : Obligations.RotrCycleRestoresEveryRegister := by
  intro m s
  have hregs : Function.Semiconj State.regs (afterRotr m) (rotateRegs m) := fun _ => rfl
  refine ⟨afterRotr m, exec_rotr m, ?_⟩
  rw [hregs.iterate_right (popcount m) s, rotateRegs_iterate_popcount]

end Sys2Proof.Machine

namespace Sys2Proof

/-! ## Proofs: the jumps, and the spec's own words -/

/-- Settles O6: each word evaluates to its instruction, with no byte left over. -/
theorem wordsOfTheSpecDecode : Obligations.WordsOfTheSpecDecode :=
  ⟨rfl, rfl, rfl, rfl, rfl, rfl, rfl, rfl, rfl, rfl, rfl⟩

end Sys2Proof

namespace Sys2Proof.Machine

/-! ### The conditions, on the selected values -/

section conditions
variable (f : RegFile) (r first : Reg) {rs : List Reg}

/-- One register is compared with 0 (42_branch.md R171; the polarity is 90_conflicts.md C6, log 15). -/
theorem takenNeq_values_singleton : takenNeq (values f [r]) = true ↔ f.get r ≠ 0 := bne_iff_ne

/-- Several registers are compared with the first (42_branch.md R171). -/
theorem takenNeq_values_cons (hrs : rs ≠ []) :
    takenNeq (values f (first :: rs)) = true ↔ ∃ r ∈ rs, f.get r ≠ f.get first := by
  obtain ⟨second, rs, rfl⟩ := List.exists_cons_of_ne_nil hrs
  simp [takenNeq, values]

/-- On any register selected JMPEQ's condition is the negation of JMPNEQ's (42_branch.md R172). -/
theorem takenEq_iff_not_takenNeq {vs : List Byte} (hvs : vs ≠ []) : takenEq vs = true ↔ ¬ takenNeq vs = true := by
  match vs, hvs with
  | [v], _ => simp [takenEq, takenNeq]
  | v :: w :: vs, _ => simp [takenEq, takenNeq]

theorem takenEq_values_singleton : takenEq (values f [r]) = true ↔ f.get r = 0 := by
  rw [takenEq_iff_not_takenNeq (by simp [values]), takenNeq_values_singleton, not_not]

theorem takenEq_values_cons (hrs : rs ≠ []) :
    takenEq (values f (first :: rs)) = true ↔ ∀ r ∈ rs, f.get r = f.get first := by
  rw [takenEq_iff_not_takenNeq (by simp [values]), takenNeq_values_cons f first hrs]
  simp only [ne_eq, not_exists, not_and, not_not]

end conditions

/-! ### JMPNEQ and JMPEQ -/

section jumps
variable (m : Mask) (target : Byte) (s : State)

/-- A branch changes pc alone: to the target, or to just past its two bytes (42_branch.md R170). -/
theorem branch_eq (taken : Bool) : branch taken target s = { s with pc := if taken then target else s.pc + 2 } := by
  cases taken <;> rfl

theorem exec_jmpneq : exec (.jmpneq m target) s =
    .next { s with pc := if takenNeq (values s.regs (select m)) then target else s.pc + 2 } :=
  congrArg Host.Outcome.next (branch_eq target s _)

theorem exec_jmpeq : exec (.jmpeq m target) s =
    .next { s with pc := if takenEq (values s.regs (select m)) then target else s.pc + 2 } :=
  congrArg Host.Outcome.next (branch_eq target s _)

end jumps

/-- Settles O50: by the number of registers selected, JMPNEQ's condition is the one the clause names. -/
theorem jmpneqJumpsWhenNotEqual : Obligations.JmpneqJumpsWhenNotEqual := by
  intro m target
  refine ⟨fun om rest => decodeAfterEncodeIsIdentity om (.jmpneq m target) rest rfl, fun s => ?_⟩
  rw [exec_jmpneq]
  refine ⟨fun hnone => ?_, fun r hone hne => ?_, fun r hone hzero => ?_, fun first rs hsel hrs hdiff => ?_,
    fun first rs hsel hrs hsame => ?_⟩
  · rw [hnone]; rfl
  · rw [hone, if_pos ((takenNeq_values_singleton s.regs r).2 hne)]
  · rw [hone, if_neg (mt (takenNeq_values_singleton s.regs r).1 (not_not.2 hzero))]
  · rw [hsel, if_pos ((takenNeq_values_cons s.regs first hrs).2 hdiff)]
  · rw [hsel, if_neg fun h => ?_]
    obtain ⟨r, hr, hne⟩ := (takenNeq_values_cons s.regs first hrs).1 h
    exact hne (hsame r hr)

/-- Settles O51: by the number of registers selected, JMPEQ's condition is the one the clause names. -/
theorem jmpeqJumpsWhenEqual : Obligations.JmpeqJumpsWhenEqual := by
  intro m target
  refine ⟨fun om rest => decodeAfterEncodeIsIdentity om (.jmpeq m target) rest rfl, fun s => ?_⟩
  rw [exec_jmpeq]
  refine ⟨fun hnone => ?_, fun r hone hzero => ?_, fun r hone hne => ?_, fun first rs hsel hrs hsame => ?_,
    fun first rs hsel hrs ⟨r, hr, hne⟩ => ?_⟩
  · rw [hnone]; rfl
  · rw [hone, if_pos ((takenEq_values_singleton s.regs r).2 hzero)]
  · rw [hone, if_neg (mt (takenEq_values_singleton s.regs r).1 hne)]
  · rw [hsel, if_pos ((takenEq_values_cons s.regs first hrs).2 hsame)]
  · rw [hsel, if_neg fun h => hne ((takenEq_values_cons s.regs first hrs).1 h r hr)]

/-- Settles O52: on the empty mask both conditions hold; on any other one is the negation of the other. -/
theorem exactlyOneOfTheTwoJumpsIsTaken : Obligations.ExactlyOneOfTheTwoJumpsIsTaken := by
  intro m target s
  rw [exec_jmpneq, exec_jmpeq]
  constructor
  · rintro rfl
    rw [select_zero]
    exact ⟨rfl, rfl⟩
  · intro hm
    have hvalues : values s.regs (select m) ≠ [] := by simpa [values] using mt select_eq_nil.1 hm
    have hneg := takenEq_iff_not_takenNeq hvalues
    by_cases hneq : takenNeq (values s.regs (select m)) = true
    · exact .inl ⟨by rw [if_pos hneq], by rw [if_neg fun heq => hneg.1 heq hneq]⟩
    · exact .inr ⟨by rw [if_neg hneq], by rw [if_pos (hneg.2 hneq)]⟩

end Sys2Proof.Machine

namespace Sys2Proof.Machine

/-! ## Proofs: STOR's whole effect -/

section stor
variable (s : State) (m : Mask) (base : Byte)

/-- Apart from pc, STOR changes memory alone (43_store.md R190). -/
theorem afterStor_eq : afterStor s m base = { s with pc := s.pc + 2, mem := (afterStor s m base).mem } :=
  storeBytes_eq (consume 2 s) base (values s.regs (select m))

/-- An address is off STOR's list when it differs from `base + k` for every selected place `k`. -/
theorem not_mem_storedAddresses_stor {b : Byte} (h : ∀ k, k < popcount m → b ≠ base + BitVec.ofNat 8 k) :
    b ∉ storedAddresses (.stor m base) := by
  intro hb
  obtain ⟨k, hk, haddr⟩ := List.mem_map.1 hb
  exact h k (List.mem_range.1 hk) haddr.symm

end stor

/-- Settles O53: the state STOR leaves reads as the selected registers at its own addresses and as before elsewhere. -/
theorem storWritesTheSelectedRegisters : Obligations.StorWritesTheSelectedRegisters := by
  intro m base
  refine ⟨fun om rest => decodeAfterEncodeIsIdentity om (.stor m base) rest rfl, fun s hm =>
    ⟨afterStor s m base, exec_stor s m base, afterStor_eq s m base, fun k r hr => ?_, fun b hb => ?_⟩⟩
  · exact memRead_afterStor_at s m base hm hr
  · exact memRead_afterStor_other s m base (not_mem_storedAddresses_stor m base hb)

end Sys2Proof.Machine

namespace Sys2Proof.Machine

/-! ## Proofs: ITR -/

/-! ### The end of a callback -/

/-- Flags break a callback's contract when bit 1 is set without bit 0 (44_interrupt.md R201). -/
theorem flagsLegal_eq_false_iff (f : Byte) :
    flagsLegal f = false ↔ f.getLsbD 1 = true ∧ f.getLsbD 0 = false := by
  rw [flagsLegal, Bool.or_eq_false_iff, Bool.not_eq_false', exceptionFlag, haltFlag]

theorem endCallback_of_legal {s : State} (h : flagsLegal s.flags = true) : endCallback s = .next s :=
  if_pos h

theorem endCallback_of_illegal {s : State} (h : flagsLegal s.flags = false) :
    endCallback s = .refused .exceptionWithoutHalt :=
  if_neg (ne_true_of_eq_false h)

/-- The memory a host callback leaves reads as the 256 bytes it gave back. -/
theorem memRead_afterCallback (s : State) (v : HostView) (out : List OutputEvent) (a : Byte) :
    memRead (afterCallback s v out) a = v.mem[a.toNat]'a.isLt :=
  Memory.read_ofBytes v.mem a.toFin

theorem acceptAnswer_ne_unboundInterrupt (s : State) (a : CallbackAnswer) :
    acceptAnswer s a ≠ .refused .unboundInterrupt := by
  rcases acceptAnswer_outcomes s a with ⟨t, h⟩ | h | h <;> simp [h]

/-! ### ITR by what its slot holds -/

section slots
variable {k : Nibble} {s : State}

/-- ITR through a bound slot runs the binding on the state just past the instruction byte. -/
theorem exec_itr_bound {b : Binding} (h : slot s.itab k = some b) :
    exec (.itr k) s = runBinding k { s with pc := s.pc + 1 } b := by
  change invoke k (consume 1 s) = runBinding k (consume 1 s) b
  simp only [invoke, consume_itab, h]

/-- ITR through a slot that runs host callback `id` takes its answer on the state just past the instruction byte. -/
theorem exec_itr_host {id : Nat}
    (h : slot s.itab k = some (.host id) ∨ (slot s.itab k = none ∧ s.unboundItr = .callback id)) :
    exec (.itr k) s = acceptAnswer { s with pc := s.pc + 1 }
      (Config.callback id k s.draws (hostView { s with pc := s.pc + 1 })) :=
  execItr_host h

end slots

/-- ITR answers a next state unless it reaches an empty slot with no behaviour, a callback leaves illegal flags, or a
host callback re-enters the loop. -/
theorem exec_itr_outcomes (k : Nibble) (s : State) :
    (∃ t, exec (.itr k) s = .next t) ∨
    (slot s.itab k = none ∧ s.unboundItr = .refuse ∧ exec (.itr k) s = .refused .unboundInterrupt) ∨
    (¬ (slot s.itab k = none ∧ s.unboundItr = .refuse) ∧
      (exec (.itr k) s = .refused .exceptionWithoutHalt ∨ exec (.itr k) s = .refused .reentrantRun)) := by
  by_cases hempty : slot s.itab k = none ∧ s.unboundItr = .refuse
  · obtain ⟨hslot, hu⟩ := hempty
    exact .inr (.inl ⟨hslot, hu, execItr_unbound hslot hu⟩)
  · have hcallback : (∃ t, exec (.itr k) s = .next t) ∨ exec (.itr k) s = .refused .exceptionWithoutHalt ∨
        exec (.itr k) s = .refused .reentrantRun := by
      cases hslot : slot s.itab k with
      | none =>
        cases hu : s.unboundItr with
        | refuse => exact absurd ⟨hslot, hu⟩ hempty
        | callback id => rw [exec_itr_host (.inr ⟨hslot, hu⟩)]; exact acceptAnswer_outcomes _ _
      | some b =>
        rw [exec_itr_bound hslot]
        cases b with
        | dump => exact (endCallback_outcomes _).imp (fun h => ⟨_, h⟩) .inl
        | emit => exact (endCallback_outcomes _).imp (fun h => ⟨_, h⟩) .inl
        | host id => exact acceptAnswer_outcomes _ _
    exact hcallback.imp_right fun hstop => .inr ⟨hempty, hstop⟩

/-- An instruction that is no ITR answers a next state from every state. -/
theorem exec_completes_of_ne_itr {i : Instr} (s : State) (h : ∀ k, i ≠ .itr k) : ∃ t, exec i s = .next t := by
  obtain ⟨t, -, ht, -⟩ := noInstructionReadsFlags i s s.flags h
  exact ⟨t, ht⟩

/-! ### The statements -/

/-- Settles O9: the step executes the instruction at pc, which completes unless it is an ITR, and an ITR that does not
complete is refused in one of the three ways. -/
theorem runningStepStopsOnlyInsideItr : Obligations.RunningStepStopsOnlyInsideItr := by
  intro om s hrun
  rw [stepWith_of_running om hrun]
  by_cases hitr : ∃ k, fetchInstr om s = .itr k
  · obtain ⟨k, hk⟩ := hitr
    rw [hk]
    exact (exec_itr_outcomes k s).imp_right fun hstop => ⟨k, rfl, hstop⟩
  · exact .inl (exec_completes_of_ne_itr s (not_exists.1 hitr))

/-- Settles O57: the answer is either re-entry, or a return that ends the callback by the flags it leaves. -/
theorem itrTakesWhateverTheHostAnswers : Obligations.ItrTakesWhateverTheHostAnswers := by
  intro k id s hslot
  rw [exec_itr_host hslot]
  cases Config.callback id k s.draws (hostView { s with pc := s.pc + 1 }) with
  | reentered => rfl
  | returned v out =>
    simp only [← flagsLegal_eq_false_iff, Bool.not_eq_false]
    exact ⟨fun hillegal => endCallback_of_illegal hillegal, fun hlegal =>
      ⟨_, endCallback_of_legal hlegal, rfl, rfl, rfl, rfl, Memory.ofBytes_wf v.mem,
        memRead_afterCallback _ v out, rfl, rfl, rfl⟩⟩

/-- Settles O55: a conventional callback keeps flags, which were legal before it, so it ends in the state with its event
appended. -/
theorem itrRunsTheConventionalCallbacks : Obligations.ItrRunsTheConventionalCallbacks := by
  intro k s hlegal
  constructor
  · intro hdump
    rw [exec_itr_bound hdump]
    exact endCallback_of_legal hlegal
  · intro hemit
    rw [exec_itr_bound hemit]
    exact endCallback_of_legal hlegal

/-- Settles O56: with no behaviour supplied the dispatcher refuses; with one it takes an answer, and no answer is
refused as unbound. -/
theorem itrToAnEmptySlotIsRefused : Obligations.ItrToAnEmptySlotIsRefused := by
  intro k s hslot
  refine ⟨execItr_unbound hslot, fun id hu => ?_⟩
  rw [exec_itr_host (.inr ⟨hslot, hu⟩)]
  exact ⟨acceptAnswer_ne_unboundInterrupt _ _, rfl⟩

end Sys2Proof.Machine

namespace Sys2Proof.Machine

/-! ## Proofs: exceptions -/

/-- Settles O19: an instruction that is no ITR sets the same flag bits from every state, so it answers there. -/
theorem everyInstructionButItrCompletes : Obligations.EveryInstructionButItrCompletes :=
  fun _ s => exec_completes_of_ne_itr s

/-! ### Taking an exception -/

/-- ITR is in no row of the table of causes. -/
theorem ne_itr_of_raiseCondition {i : Instr} {s : State} (hraise : raiseCondition i s) (k : Nibble) : i ≠ .itr k := by
  rintro rfl
  exact hraise

/-- Of the seven effects, an instruction whose raise condition holds can only have the exception. -/
theorem exec_of_raiseCondition {i : Instr} {s : State} (hraise : raiseCondition i s) :
    exec i s = .next { s with flags := s.flags ||| 0x03, pc := s.pc + 2 } := by
  have hitr := ne_itr_of_raiseCondition hraise
  obtain ⟨t, ht⟩ := exec_completes_of_ne_itr s hitr
  rw [ht]
  cases exec_next ht with
  | halt hi => subst hi; exact hraise.elim
  | exception _ _ _ _ => rfl
  | registers _ hquiet _ _ => exact absurd hraise hquiet
  | jump _ _ hj => exact absurd hraise (not_raiseCondition_of_jump s hj)
  | store _ _ hi => subst hi; exact hraise.elim
  | output k _ hi _ _ => exact absurd hi (hitr k)
  | host _ _ hhost _ =>
    obtain ⟨k, _, hi, _⟩ := hhost
    exact absurd hi (hitr k)

/-- Settles O33: the exception is the one effect left, and it sets the halt bit. -/
theorem exceptionsArePreciseAndHalt : Obligations.ExceptionsArePreciseAndHalt :=
  fun _ s hraise => ⟨exec_of_raiseCondition hraise,
    fun om => haltedMachineHasNoStep om _ (haltFlag_or s.flags (by decide))⟩

/-! ### The exception bit -/

theorem exceptionFlag_or (f g : Byte) : exceptionFlag (f ||| g) = (exceptionFlag f || exceptionFlag g) :=
  BitVec.getLsbD_or

/-- Of the two bytes ORed into flags, an exception's 3 has the exception bit and HALT's 1 has not. -/
theorem exceptionFlag_after_iff {i : Instr} {s t : State} (hitr : ∀ k, i ≠ .itr k)
    (hclear : exceptionFlag s.flags = false) (h : exec i s = .next t) :
    exceptionFlag t.flags = true ↔ raiseCondition i s := by
  have hhost : ¬ runsHostCode i s := fun ⟨k, _, hi, _⟩ => hitr k hi
  obtain ⟨hhalt, hraised, hkept, -⟩ := flagsChangeOnlyByHaltExceptionOrHost i s t h hhost
  by_cases hraise : raiseCondition i s
  · refine iff_of_true ?_ hraise
    rw [hraised hraise, exceptionFlag_or, hclear]
    decide
  · refine iff_of_false (Bool.eq_false_iff.1 ?_) hraise
    by_cases hi : i = .halt
    · rw [hhalt hi, exceptionFlag_or, hclear]
      decide
    · rw [hkept hi hraise, hclear]

/-! ### The ghost cause -/

/-- The mask check of ADD to XOR fails exactly under the table's condition. -/
theorem binaryMaskCause_ne_none_iff (src : Byte) :
    binaryMaskCause src ≠ none ↔ highNibble src ≠ 0 ∨ popcount (lowNibble src) ≠ 2 := by
  rw [binaryMaskCause_eq, ← sourcePair_none_iff]
  simp

/-- The mask check of ADD to XOR names no other cause. -/
theorem binaryMaskCause_eq_some {src : Byte} {c : ExcCause} (h : binaryMaskCause src = some c) :
    c = .badSourceMask := by
  rw [binaryMaskCause_eq] at h
  split at h
  · exact (Option.some.inj h).symm
  · cases h

theorem exceptionCause_loadr_of_high {d : Mask} {src : Byte} {s : State} (hhigh : highNibble src ≠ 0) :
    exceptionCause (.loadr d src) s = some .badSourceMask :=
  if_pos hhigh

/-- LOADR's count check comes after its high-nibble check (60_exceptions.md R224). -/
theorem exceptionCause_loadr_of_zero_high {d : Mask} {src : Byte} {s : State} (hhigh : highNibble src = 0) :
    exceptionCause (.loadr d src) s = if popcount (lowNibble src) ≠ popcount d then some .popMismatch else none :=
  if_neg (not_not.2 hhigh)

/-- On a tabled pair the mask check passes, and the divisor alone decides. -/
theorem exceptionCause_div_of_pair {d : Mask} {src : Byte} {s : State} {p q : Reg}
    (hp : sourcePair src = some (p, q)) :
    exceptionCause (.div d src) s = if s.regs.get q = 0 then some .divByZero else none := by
  have hmask : binaryMaskCause src = none := by simp [binaryMaskCause_eq, hp]
  simp only [exceptionCause, hmask, secondOperand_of_pair hp]

/-- The checks of LOADR fail exactly under the table's condition. -/
theorem exceptionCause_loadr_ne_none_iff (d : Mask) (src : Byte) (s : State) :
    exceptionCause (.loadr d src) s ≠ none ↔ raiseCondition (.loadr d src) s := by
  rw [raiseCondition]
  by_cases hhigh : highNibble src = 0
  · rw [exceptionCause_loadr_of_zero_high hhigh]
    simp [hhigh]
  · rw [exceptionCause_loadr_of_high hhigh]
    exact iff_of_true (Option.some_ne_none _) (.inl hhigh)

/-- The checks of DIV fail exactly under the table's condition. -/
theorem exceptionCause_div_ne_none_iff (d : Mask) (src : Byte) (s : State) :
    exceptionCause (.div d src) s ≠ none ↔ raiseCondition (.div d src) s := by
  rw [raiseCondition, ← or_assoc, ← sourcePair_none_iff]
  rcases hpair : sourcePair src with _ | ⟨p, q⟩
  · rw [exceptionCause_div_of_bad hpair]
    exact iff_of_true (Option.some_ne_none _) (.inl rfl)
  · rw [exceptionCause_div_of_pair hpair]
    simp

/-- An instruction has a ghost cause exactly when the table says that it raises. -/
theorem exceptionCause_ne_none_iff (i : Instr) (s : State) : exceptionCause i s ≠ none ↔ raiseCondition i s := by
  cases i with
  | loadr d src => exact exceptionCause_loadr_ne_none_iff d src s
  | div d src => exact exceptionCause_div_ne_none_iff d src s
  | add _ src | sub _ src | mul _ src | and _ src | or _ src | xor _ src => exact binaryMaskCause_ne_none_iff src
  | halt | loadi _ _ | inc _ | dec _ | rotr _ | jmpneq _ _ | jmpeq _ _ | stor _ _ | itr _ =>
    exact iff_of_false (not_not.2 rfl) id

/-- THE INVERSION of the ghost cause: PopMismatch is LOADR's second check, DivByZero DIV's. -/
theorem exceptionCause_eq_some {i : Instr} {s : State} {c : ExcCause} (h : exceptionCause i s = some c) :
    c = .badSourceMask ∨
    (c = .popMismatch ∧
      ∃ d src, i = .loadr d src ∧ highNibble src = 0 ∧ popcount (lowNibble src) ≠ popcount d) ∨
    (c = .divByZero ∧ ∃ d src p q, i = .div d src ∧ sourcePair src = some (p, q) ∧ s.regs.get q = 0) := by
  cases i with
  | loadr d src =>
    by_cases hhigh : highNibble src = 0
    · rw [exceptionCause_loadr_of_zero_high hhigh, Option.ite_none_right_eq_some] at h
      obtain ⟨hcount, hc⟩ := h
      exact .inr (.inl ⟨(Option.some.inj hc).symm, d, src, rfl, hhigh, hcount⟩)
    · rw [exceptionCause_loadr_of_high hhigh] at h
      exact .inl (Option.some.inj h).symm
  | div d src =>
    rcases hpair : sourcePair src with _ | ⟨p, q⟩
    · rw [exceptionCause_div_of_bad hpair] at h
      exact .inl (Option.some.inj h).symm
    · rw [exceptionCause_div_of_pair hpair, Option.ite_none_right_eq_some] at h
      obtain ⟨hzero, hc⟩ := h
      exact .inr (.inr ⟨(Option.some.inj hc).symm, d, src, p, q, rfl, hpair, hzero⟩)
  | add _ _ | sub _ _ | mul _ _ | and _ _ | or _ _ | xor _ _ => exact .inl (binaryMaskCause_eq_some h)
  | halt | loadi _ _ | inc _ | dec _ | rotr _ | jmpneq _ _ | jmpeq _ _ | stor _ _ | itr _ => cases h

theorem exceptionCause_eq_popMismatch_iff (i : Instr) (s : State) :
    exceptionCause i s = some .popMismatch ↔
      ∃ d src, i = .loadr d src ∧ highNibble src = 0 ∧ popcount (lowNibble src) ≠ popcount d := by
  constructor
  · intro h
    rcases exceptionCause_eq_some h with hc | ⟨-, hloadr⟩ | ⟨hc, -⟩
    · cases hc
    · exact hloadr
    · cases hc
  · rintro ⟨d, src, rfl, hhigh, hcount⟩
    rw [exceptionCause_loadr_of_zero_high hhigh, if_pos hcount]

theorem exceptionCause_eq_divByZero_iff (i : Instr) (s : State) :
    exceptionCause i s = some .divByZero ↔
      ∃ d src p q, i = .div d src ∧ sourcePair src = some (p, q) ∧ s.regs.get q = 0 := by
  constructor
  · intro h
    rcases exceptionCause_eq_some h with hc | ⟨hc, -⟩ | ⟨-, hdiv⟩
    · cases hc
    · cases hc
    · exact hdiv
  · rintro ⟨d, src, p, q, rfl, hp, hzero⟩
    exact exceptionCause_div_of_zero hp hzero

/-- Settles O34: the exception bit, there being a cause, and the two causes beside BadSourceMask, each by its own
equivalence. -/
theorem exceptionsAreRaisedExactlyByTheTable : Obligations.ExceptionsAreRaisedExactlyByTheTable :=
  ⟨fun _ _ _ => exceptionFlag_after_iff, exceptionCause_ne_none_iff,
    fun i s => ⟨exceptionCause_eq_popMismatch_iff i s, exceptionCause_eq_divByZero_iff i s⟩⟩

end Sys2Proof.Machine

namespace Sys2Proof.Machine

/-! ## Proofs: the loader, construction, and the runs that start there -/

/-! ### The loader -/

/-- An image that does not fit is rejected (70_reset_and_hazards.md R251). -/
theorem load_of_too_long {image : List Byte} (h : image.length > 256) : load image = none := if_pos h

/-- An image that the loader accepts fits, and what is loaded is its cells from address 0. -/
theorem load_eq_some_iff {image : List Byte} {m : Memory} :
    load image = some m ↔ image.length ≤ 256 ∧ imageCells 0 image = m := by
  rcases Nat.lt_or_ge 256 image.length with hlong | hfits
  · simp [load_of_too_long hlong, hlong]
  · simp [load_of_fits hfits, hfits]

/-- The loaded memory of an image that fits is canonical. -/
theorem imageCells_wf {image : List Byte} (h : image.length ≤ 256) : (imageCells 0 image).wf :=
  (imageCells_spec 0 image (by omega)).1

/-- The loaded memory of an image that fits reads as the image, and 0 beyond it. -/
theorem read_imageCells {image : List Byte} (h : image.length ≤ 256) (a : Nat) :
    (imageCells 0 image).read a = image.getD a 0x00 := by
  obtain ⟨-, -, hread⟩ := imageCells_spec 0 image (by omega)
  rw [← hread, Nat.zero_add]

/-- Settles O28: the loader answers exactly on the images that fit, with their cells. -/
theorem loadZeroFillsAndRejectsLongImages : Obligations.LoadZeroFillsAndRejectsLongImages :=
  fun _ => ⟨load_of_too_long,
    fun hfits => ⟨_, load_of_fits hfits, imageCells_wf hfits, fun a _ => read_imageCells hfits a⟩⟩

/-! ### Construction -/

/-- THE INVERSION of construction: the image fits, and the state is the reset state but for what the host supplies,
which is the memory, the table and what an empty slot does (10_state.md R34). -/
theorem construct_eq_some_iff {image : List Byte} {itab : Itab} {u : Config.UnboundItr} {s : State} :
    construct image itab u = some s ↔
      image.length ≤ 256 ∧ { State.reset with mem := imageCells 0 image, itab := itab, unboundItr := u } = s := by
  constructor
  · intro h
    obtain ⟨m, hm, rfl⟩ := Option.map_eq_some_iff.1 h
    obtain ⟨hfits, rfl⟩ := load_eq_some_iff.1 hm
    exact ⟨hfits, rfl⟩
  · rintro ⟨hfits, rfl⟩
    exact congrArg (Option.map _) (load_of_fits hfits)

/-- Settles O30: the empty image has no cells, and the behaviour of an empty slot is one of the fields supplied. -/
theorem resetIsConstructionWithTheConventionalTable : Obligations.ResetIsConstructionWithTheConventionalTable := by
  refine ⟨construct_eq_some_iff.2 ⟨Nat.zero_le 256, rfl⟩, fun image itab u s h => ?_⟩
  obtain ⟨-, rfl⟩ := construct_eq_some_iff.1 h
  rfl

/-! ### Runs from a launch -/

/-- A launched machine has no flag set, and its memory is a loaded image. -/
theorem Launch.machineInv {s : State} (h : Launch s) : MachineInv s := by
  obtain ⟨image, itab, u, hs⟩ := h
  obtain ⟨hfits, rfl⟩ := construct_eq_some_iff.1 hs
  exact ⟨imageCells_wf hfits, resetMeetsTheInvariant.2⟩

/-- The invariant holds at every launch and every step keeps it. -/
theorem Reachable.machineInv {om : OpcodeMap} {s : State} (h : Reachable om s) : MachineInv s := by
  induction h with
  | launch hs => exact hs.machineInv
  | step _ hstep ih => exact stepKeepsTheInvariant om _ _ ih hstep

/-- A run that ends does so in a state its start reaches. -/
theorem Reachable.of_runLoop_ended {om : OpcodeMap} {n : Nat} {s t : State} (hs : Reachable om s)
    (h : runLoop om n s = .ended t) : Reachable om t :=
  runLoop_ended_induction (P := fun _ s => Reachable om s → Reachable om t) (fun _ _ => id)
    (fun _ _ _ _ hstep ih hs => ih (hs.step hstep)) h hs

/-- Settles O13: the invariant by induction over reachability, the end of a run by induction over the loop. -/
theorem launchedRunsMeetTheInvariant : Obligations.LaunchedRunsMeetTheInvariant := by
  refine ⟨fun _ _ => Reachable.machineInv, ?_⟩
  rintro om s t hs ⟨n, hend⟩
  exact ⟨(Reachable.launch hs).of_runLoop_ended hend, haltFlag_of_runLoop_ended hend⟩

end Sys2Proof.Machine
